-- ==== Sys2Proof/Word.lean ====
section
/-! DEFINITION. The word types of the machine (00_scope.md R7, R8; 10_state.md R20; 30_encoding.md R91): every value is
unsigned, bit 0 is the least significant. -/

namespace Sys2Proof

/-- The content of a general register, a timer or a memory byte. -/
abbrev Byte := BitVec 8

/-- The content of `I`, `pc` or a call-stack entry, and one opcode. -/
abbrev Word := BitVec 16

/-- The index of a general register, 0 to 15 (R20). -/
abbrev Reg := Fin 16

/-- The index of a key, 0 to 15 (10_state.md R39). -/
abbrev Key := Fin 16

end Sys2Proof
end

