-- ==== Sys2Proof/Syntax.lean ====
section
/-! DEFINITION. The instructions: one constructor per row of spec/opcode_table.json, in the order of 30_encoding.md R95,
and nothing else (R102). -/

namespace Sys2Proof

/-- The 34 operations with their operands (R94): `x`, `y` registers, `nn` an immediate byte, `nnn` an absolute address
(12 bits, zero-extended), `n` a count of sprite rows. Only `return` is renamed, to `ret`. -/
inductive Instr where
  | clearScreen
  | ret
  | jump (nnn : Word)
  | call (nnn : Word)
  | skipEqImm (x : Reg) (nn : Byte)
  | skipNeImm (x : Reg) (nn : Byte)
  | skipEqReg (x y : Reg)
  | loadImm (x : Reg) (nn : Byte)
  | addImm (x : Reg) (nn : Byte)
  | set (x y : Reg)
  | or (x y : Reg)
  | and (x y : Reg)
  | xor (x y : Reg)
  | add (x y : Reg)
  | sub (x y : Reg)
  | shr (x y : Reg)
  | subn (x y : Reg)
  | shl (x y : Reg)
  | skipNeReg (x y : Reg)
  | setIndex (nnn : Word)
  | jumpOffset (nnn : Word)
  | random (x : Reg) (nn : Byte)
  | draw (x y : Reg) (n : Nat)
  | skipIfKey (x : Reg)
  | skipIfNotKey (x : Reg)
  | loadDelay (x : Reg)
  | waitKey (x : Reg)
  | setDelay (x : Reg)
  | setSound (x : Reg)
  | addIndex (x : Reg)
  | loadFontAddr (x : Reg)
  | storeBcd (x : Reg)
  | storeRegs (x : Reg)
  | loadRegs (x : Reg)
  deriving DecidableEq, Repr

/-- The spec's mnemonic (R103: the name in the source's table). -/
def Instr.mnemonic : Instr → String
  | .clearScreen => "clear-screen"
  | .ret => "return"
  | .jump _ => "jump"
  | .call _ => "call"
  | .skipEqImm _ _ => "skip-eq-imm"
  | .skipNeImm _ _ => "skip-ne-imm"
  | .skipEqReg _ _ => "skip-eq-reg"
  | .loadImm _ _ => "load-imm"
  | .addImm _ _ => "add-imm"
  | .set _ _ => "set"
  | .or _ _ => "or"
  | .and _ _ => "and"
  | .xor _ _ => "xor"
  | .add _ _ => "add"
  | .sub _ _ => "sub"
  | .shr _ _ => "shr"
  | .subn _ _ => "subn"
  | .shl _ _ => "shl"
  | .skipNeReg _ _ => "skip-ne-reg"
  | .setIndex _ => "set-index"
  | .jumpOffset _ => "jump-offset"
  | .random _ _ => "random"
  | .draw _ _ _ => "draw"
  | .skipIfKey _ => "skip-if-key"
  | .skipIfNotKey _ => "skip-if-not-key"
  | .loadDelay _ => "load-delay"
  | .waitKey _ => "wait-key"
  | .setDelay _ => "set-delay"
  | .setSound _ => "set-sound"
  | .addIndex _ => "add-index"
  | .loadFontAddr _ => "load-font-addr"
  | .storeBcd _ => "store-bcd"
  | .storeRegs _ => "store-regs"
  | .loadRegs _ => "load-regs"

end Sys2Proof
end

