-- ==== Sys2Proof/WellFormed.lean ====
section
/-! DEFINITION. When an instruction term is one the encoding can hold (30_encoding.md R91, R94): an address operand has 12
bits and a row count 4; register indexes and immediate bytes fit by their type. -/

namespace Sys2Proof

/-- The address operand fits its 12-bit field (R91, R94). -/
def addressFits (nnn : Word) : Bool := decide (nnn.toNat < 4096)

/-- The row count fits its 4-bit field (R91, R94). -/
def countFits (n : Nat) : Bool := decide (n < 16)

/-- The check, constructor by constructor. -/
def wellFormed : Instr → Bool
  | .clearScreen => true
  | .ret => true
  | .jump nnn => addressFits nnn
  | .call nnn => addressFits nnn
  | .skipEqImm _ _ => true
  | .skipNeImm _ _ => true
  | .skipEqReg _ _ => true
  | .loadImm _ _ => true
  | .addImm _ _ => true
  | .set _ _ => true
  | .or _ _ => true
  | .and _ _ => true
  | .xor _ _ => true
  | .add _ _ => true
  | .sub _ _ => true
  | .shr _ _ => true
  | .subn _ _ => true
  | .shl _ _ => true
  | .skipNeReg _ _ => true
  | .setIndex nnn => addressFits nnn
  | .jumpOffset nnn => addressFits nnn
  | .random _ _ => true
  | .draw _ _ n => countFits n
  | .skipIfKey _ => true
  | .skipIfNotKey _ => true
  | .loadDelay _ => true
  | .waitKey _ => true
  | .setDelay _ => true
  | .setSound _ => true
  | .addIndex _ => true
  | .loadFontAddr _ => true
  | .storeBcd _ => true
  | .storeRegs _ => true
  | .loadRegs _ => true

end Sys2Proof
end

