-- ==== Sys2Proof/Decode.lean ====
section
/-! DEFINITION. The decoder, total on every word and on every byte sequence, and after it the encoder (30_encoding.md R90 to
R102). The patterns are those of R95, which the spec takes from general knowledge of the instruction set (log 2); every bit
that is no operand must match (R98, log 3). -/

namespace Sys2Proof

/-- R92: the generic primitive `Extract(op, mask, shift)`. -/
def extract (op mask : Word) (shift : Nat) : Word := (op &&& mask) >>> shift

/-- R91: the leading nibble, `op[15:12]`. -/
def fieldLead (op : Word) : BitVec 4 := op.extractLsb' 12 4

/-- R91: the first register operand, `op[11:8]`. -/
def fieldX (op : Word) : Reg := ⟨(op.extractLsb' 8 4).toNat, (op.extractLsb' 8 4).isLt⟩

/-- R91: the second register operand, `op[7:4]`. -/
def fieldY (op : Word) : Reg := ⟨(op.extractLsb' 4 4).toNat, (op.extractLsb' 4 4).isLt⟩

/-- R91: the low nibble, `op[3:0]`. -/
def fieldN (op : Word) : BitVec 4 := op.extractLsb' 0 4

/-- R91: the immediate byte, `op[7:0]`. -/
def fieldNN (op : Word) : Byte := op.extractLsb' 0 8

/-- R91: the address operand, `op[11:0]`, zero-extended to the width of `pc` and `I` (R94). -/
def fieldNNN (op : Word) : Word := (op.extractLsb' 0 12).setWidth 16

/-- Why no instruction is read. -/
inductive DecodeError where
  /-- The word selects no row of R95 (R99); it carries the offending opcode. -/
  | unknownInstruction (op : Word)
  /-- Fewer than two bytes: no whole opcode (R90). -/
  | truncated
  deriving DecidableEq, Repr

/-- Second level of dispatch for `lead = 8`: the low nibble (R96). -/
def decodeFamily8 (op : Word) : Except DecodeError Instr :=
  match fieldN op with
  | 0x0 => .ok (.set (fieldX op) (fieldY op))
  | 0x1 => .ok (.or (fieldX op) (fieldY op))
  | 0x2 => .ok (.and (fieldX op) (fieldY op))
  | 0x3 => .ok (.xor (fieldX op) (fieldY op))
  | 0x4 => .ok (.add (fieldX op) (fieldY op))
  | 0x5 => .ok (.sub (fieldX op) (fieldY op))
  | 0x6 => .ok (.shr (fieldX op) (fieldY op))
  | 0x7 => .ok (.subn (fieldX op) (fieldY op))
  | 0xE => .ok (.shl (fieldX op) (fieldY op))
  | _ => .error (.unknownInstruction op)

/-- Second level of dispatch for `lead = E`: the low byte (R96). -/
def decodeFamilyE (op : Word) : Except DecodeError Instr :=
  match fieldNN op with
  | 0x9E => .ok (.skipIfKey (fieldX op))
  | 0xA1 => .ok (.skipIfNotKey (fieldX op))
  | _ => .error (.unknownInstruction op)

/-- Second level of dispatch for `lead = F`: the low byte (R96). -/
def decodeFamilyF (op : Word) : Except DecodeError Instr :=
  match fieldNN op with
  | 0x07 => .ok (.loadDelay (fieldX op))
  | 0x0A => .ok (.waitKey (fieldX op))
  | 0x15 => .ok (.setDelay (fieldX op))
  | 0x18 => .ok (.setSound (fieldX op))
  | 0x1E => .ok (.addIndex (fieldX op))
  | 0x29 => .ok (.loadFontAddr (fieldX op))
  | 0x33 => .ok (.storeBcd (fieldX op))
  | 0x55 => .ok (.storeRegs (fieldX op))
  | 0x65 => .ok (.loadRegs (fieldX op))
  | _ => .error (.unknownInstruction op)

/-- R95, R96: dispatch on the leading nibble first; `lead = 0` needs the whole word, 5, 8, 9 the low nibble, E and F the
low byte. -/
def decode (op : Word) : Except DecodeError Instr :=
  match fieldLead op with
  | 0x0 =>
    if op = 0x00E0 then .ok .clearScreen
    else if op = 0x00EE then .ok .ret
    else .error (.unknownInstruction op)
  | 0x1 => .ok (.jump (fieldNNN op))
  | 0x2 => .ok (.call (fieldNNN op))
  | 0x3 => .ok (.skipEqImm (fieldX op) (fieldNN op))
  | 0x4 => .ok (.skipNeImm (fieldX op) (fieldNN op))
  | 0x5 => if fieldN op = 0 then .ok (.skipEqReg (fieldX op) (fieldY op)) else .error (.unknownInstruction op)
  | 0x6 => .ok (.loadImm (fieldX op) (fieldNN op))
  | 0x7 => .ok (.addImm (fieldX op) (fieldNN op))
  | 0x8 => decodeFamily8 op
  | 0x9 => if fieldN op = 0 then .ok (.skipNeReg (fieldX op) (fieldY op)) else .error (.unknownInstruction op)
  | 0xA => .ok (.setIndex (fieldNNN op))
  | 0xB => .ok (.jumpOffset (fieldNNN op))
  | 0xC => .ok (.random (fieldX op) (fieldNN op))
  | 0xD => .ok (.draw (fieldX op) (fieldY op) (fieldN op).toNat)
  | 0xE => decodeFamilyE op
  | _ => decodeFamilyF op

/-- The opcode made of two bytes, the more significant one first (20_memory.md R64, 30_encoding.md R90). -/
def wordOfBytes (hi lo : Byte) : Word := BitVec.ofNat 16 (hi.toNat * 256 + lo.toNat)

/-- The more significant byte of a word. -/
def hiByte (w : Word) : Byte := w.extractLsb' 8 8

/-- The less significant byte of a word. -/
def loByte (w : Word) : Byte := w.extractLsb' 0 8

/-- The instruction at the head of a byte sequence, with the bytes after it: two bytes, high byte first (R90). -/
def decodeBytes : List Byte → Except DecodeError (Instr × List Byte)
  | hi :: lo :: rest =>
    match decode (wordOfBytes hi lo) with
    | .ok i => .ok (i, rest)
    | .error e => .error e
  | _ => .error .truncated

/-- What this decoder reads from an instruction whose bits are `w`, numbered as spec/opcode_table.json numbers them: the one
16-bit word is laid out high byte first and given to `decodeBytes`. -/
def decodeTableWord (nbits w : Nat) : Option Instr :=
  let op : Word := BitVec.ofNat 16 (w % 2 ^ nbits)
  match decodeBytes [hiByte op, loByte op] with
  | .ok (i, _) => some i
  | .error _ => none

/-! ### The encoder -/

/-- Format `A` of R93: `lead`, `nnn`. -/
def formatA (lead : Nat) (nnn : Word) : Word := BitVec.ofNat 16 (lead * 4096 + nnn.toNat % 4096)

/-- Format `XI` of R93: `lead`, `x`, `nn`. -/
def formatXI (lead : Nat) (x : Reg) (nn : Byte) : Word := BitVec.ofNat 16 (lead * 4096 + x.val * 256 + nn.toNat)

/-- Formats `XY` and `XYN` of R93: `lead`, `x`, `y`, low nibble. -/
def formatXY (lead : Nat) (x y : Reg) (n : Nat) : Word :=
  BitVec.ofNat 16 (lead * 4096 + x.val * 256 + y.val * 16 + n % 16)

/-- Format `X` of R93: `lead`, `x`, low byte. -/
def formatX (lead : Nat) (x : Reg) (sub : Byte) : Word := BitVec.ofNat 16 (lead * 4096 + x.val * 256 + sub.toNat)

/-- The word of an instruction (R95); the words of well-formed instructions are exactly the legal words. -/
def encode : Instr → Word
  | .clearScreen => 0x00E0
  | .ret => 0x00EE
  | .jump nnn => formatA 0x1 nnn
  | .call nnn => formatA 0x2 nnn
  | .skipEqImm x nn => formatXI 0x3 x nn
  | .skipNeImm x nn => formatXI 0x4 x nn
  | .skipEqReg x y => formatXY 0x5 x y 0x0
  | .loadImm x nn => formatXI 0x6 x nn
  | .addImm x nn => formatXI 0x7 x nn
  | .set x y => formatXY 0x8 x y 0x0
  | .or x y => formatXY 0x8 x y 0x1
  | .and x y => formatXY 0x8 x y 0x2
  | .xor x y => formatXY 0x8 x y 0x3
  | .add x y => formatXY 0x8 x y 0x4
  | .sub x y => formatXY 0x8 x y 0x5
  | .shr x y => formatXY 0x8 x y 0x6
  | .subn x y => formatXY 0x8 x y 0x7
  | .shl x y => formatXY 0x8 x y 0xE
  | .skipNeReg x y => formatXY 0x9 x y 0x0
  | .setIndex nnn => formatA 0xA nnn
  | .jumpOffset nnn => formatA 0xB nnn
  | .random x nn => formatXI 0xC x nn
  | .draw x y n => formatXY 0xD x y n
  | .skipIfKey x => formatX 0xE x 0x9E
  | .skipIfNotKey x => formatX 0xE x 0xA1
  | .loadDelay x => formatX 0xF x 0x07
  | .waitKey x => formatX 0xF x 0x0A
  | .setDelay x => formatX 0xF x 0x15
  | .setSound x => formatX 0xF x 0x18
  | .addIndex x => formatX 0xF x 0x1E
  | .loadFontAddr x => formatX 0xF x 0x29
  | .storeBcd x => formatX 0xF x 0x33
  | .storeRegs x => formatX 0xF x 0x55
  | .loadRegs x => formatX 0xF x 0x65

/-- The bytes of an instruction in memory order (R90). -/
def encodeBytes (i : Instr) : List Byte := [hiByte (encode i), loByte (encode i)]

/-! ### The opcode map as the spec prints it -/

/-- One row of R95: a word `op` selects it if and only if `op & mask = bits`. -/
structure OpcodeRow where
  mnemonic : String
  bits     : Word
  mask     : Word
  deriving DecidableEq, Repr

/-- R95, rows 1 to 19. -/
def opcodeRowsLow : List OpcodeRow :=
  [⟨"clear-screen", 0x00E0, 0xFFFF⟩, ⟨"return", 0x00EE, 0xFFFF⟩, ⟨"jump", 0x1000, 0xF000⟩, ⟨"call", 0x2000, 0xF000⟩,
   ⟨"skip-eq-imm", 0x3000, 0xF000⟩, ⟨"skip-ne-imm", 0x4000, 0xF000⟩, ⟨"skip-eq-reg", 0x5000, 0xF00F⟩,
   ⟨"load-imm", 0x6000, 0xF000⟩, ⟨"add-imm", 0x7000, 0xF000⟩, ⟨"set", 0x8000, 0xF00F⟩, ⟨"or", 0x8001, 0xF00F⟩,
   ⟨"and", 0x8002, 0xF00F⟩, ⟨"xor", 0x8003, 0xF00F⟩, ⟨"add", 0x8004, 0xF00F⟩, ⟨"sub", 0x8005, 0xF00F⟩,
   ⟨"shr", 0x8006, 0xF00F⟩, ⟨"subn", 0x8007, 0xF00F⟩, ⟨"shl", 0x800E, 0xF00F⟩, ⟨"skip-ne-reg", 0x9000, 0xF00F⟩]

/-- R95, rows 20 to 34. -/
def opcodeRowsHigh : List OpcodeRow :=
  [⟨"set-index", 0xA000, 0xF000⟩, ⟨"jump-offset", 0xB000, 0xF000⟩, ⟨"random", 0xC000, 0xF000⟩,
   ⟨"draw", 0xD000, 0xF000⟩, ⟨"skip-if-key", 0xE09E, 0xF0FF⟩, ⟨"skip-if-not-key", 0xE0A1, 0xF0FF⟩,
   ⟨"load-delay", 0xF007, 0xF0FF⟩, ⟨"wait-key", 0xF00A, 0xF0FF⟩, ⟨"set-delay", 0xF015, 0xF0FF⟩,
   ⟨"set-sound", 0xF018, 0xF0FF⟩, ⟨"add-index", 0xF01E, 0xF0FF⟩, ⟨"load-font-addr", 0xF029, 0xF0FF⟩,
   ⟨"store-bcd", 0xF033, 0xF0FF⟩, ⟨"store-regs", 0xF055, 0xF0FF⟩, ⟨"load-regs", 0xF065, 0xF0FF⟩]

/-- The opcode map of R95. The decoder does not consult it: that the two agree is a statement about both. -/
def opcodeRows : List OpcodeRow := opcodeRowsLow ++ opcodeRowsHigh

/-- The word selects the row (R95). -/
def OpcodeRow.selectedBy (r : OpcodeRow) (op : Word) : Bool := op &&& r.mask == r.bits

end Sys2Proof
end

