-- ==== Sys2Proof/Config.lean ====
section
/-! DEFINITION. What is fixed of the implementation (00_scope.md R6), the types of its named parameters, and the free
values the spec leaves open. The parameters' values stand in Machine/Params.lean. -/

namespace Sys2Proof.Config

/-- `MEM_SIZE`: the addresses are 0 to 4095 (R6, 10_state.md R32). -/
abbrev memSize : Nat := 4096

/-- `FONT_BASE` (R6). -/
abbrev fontBase : Nat := 0

/-- `FONT_GLYPHS` (R6). -/
abbrev fontGlyphs : Nat := 16

/-- `FONT_GLYPH_BYTES` (R6). -/
abbrev fontGlyphBytes : Nat := 5

/-- `FONT_END`: the address of the last font byte, 0x04F (R6). -/
abbrev fontEnd : Nat := fontBase + fontGlyphs * fontGlyphBytes - 1

/-- `PROGRAM_ORIGIN`: where a program is loaded and where `pc` starts (R6). -/
abbrev programOrigin : Nat := 0x200

/-- The longest program image: 3584 bytes (10_state.md R33, R41). -/
abbrev programMax : Nat := 3584

/-- `NREG`: the number of general registers (R6). -/
abbrev nreg : Nat := 16

/-- The width in bits of a general register (R6, with `NREG`). -/
abbrev regWidth : Nat := 8

/-- `FLAG_REG`: the index of the flag register (R6; general knowledge: log 4). -/
abbrev flagReg : Reg := 15

/-- The width in bits of `I` (R6). -/
abbrev indexWidth : Nat := 16

/-- The width in bits of `pc` (R6). -/
abbrev pcWidth : Nat := 16

/-- `STACK_DEPTH` (R6). -/
abbrev stackDepth : Nat := 16

/-- The width in bits of a call-stack entry (R6, with `STACK_DEPTH`). -/
abbrev stackWidth : Nat := 16

/-- The width in bits of `DT` and of `ST` (R6). -/
abbrev timerWidth : Nat := 8

/-- `DISP_W` (R6). -/
abbrev dispW : Nat := 64

/-- `DISP_H` (R6). -/
abbrev dispH : Nat := 32

/-- `NKEYS` (R6). -/
abbrev nkeys : Nat := 16

/-- `TICK_HZ`: ticks in a second (R6). The model has no seconds (log 37). -/
abbrev tickHz : Nat := 60

/-- `INSTR_LEN` in bits (R6). -/
abbrev instrBits : Nat := 16

/-- `INSTR_LEN` in bytes (R6). -/
abbrev instrBytes : Nat := 2

/-- `WAITKEY_LOST_LATCH`: what `wait-key` does when the latched key is up at the confirming poll (92_eei_decisions.md D15). -/
inductive LostLatch where
  | hold
  | restart
  deriving DecidableEq, Repr

/-- `DRAW_N0`: what `draw` does with `n = 0` (92_eei_decisions.md D20). -/
inductive DrawN0 where
  | nop
  | fault
  deriving DecidableEq, Repr

/-- `KEY_OOR`: what a key skip does when `V[x]` names no key (R6, 92_eei_decisions.md D16). The first four are the spec's values,
`refuse` its default; `free` is the model's own (log 13). -/
inductive KeyOor where
  /-- The case has no meaning. -/
  | refuse
  /-- Use `V[x] mod 16`. -/
  | mask
  /-- Treat the key as not down. -/
  | up
  /-- The run faults. -/
  | fault
  /-- MODEL'S OWN (log 13): the instruction runs, and which way it goes is left open. -/
  | free
  deriving DecidableEq, Repr

/-- The named parameters of 93_implementation_defined.md that the spec decides but a claim may name. -/
structure Params where
  /-- `FONT`: sixteen glyphs of five bytes, the first byte the top row (10_state.md R34, R36). -/
  font      : Vector (Vector Byte 5) 16
  /-- `SUB_EQ_FLAG`: the flag of `sub` and `subn` when the operands are equal (D13). -/
  subEqFlag : Byte
  lostLatch : LostLatch
  drawN0    : DrawN0
  keyOor    : KeyOor
  deriving DecidableEq, Repr

/-- FREE VALUE. The number of 60 Hz ticks the host delivers to an advance that it has not scripted
(60_exceptions.md R215, D1); the argument is the count of free values drawn before it. Log 11. -/
opaque freeTicks : Nat → Nat

/-- FREE VALUE. The byte `random` draws when the environment has lined up none (41_alu.md R152, D3). Log 12. -/
opaque freeRandom : Nat → Byte

/-- FREE VALUE. `IPS`: the host's instructions per second (R6). No rule depends on it, and no definition (log 37). -/
opaque ips : Nat

/-- FREE VALUE. Under `KEY_OOR = free`, whether a key skip finds "the key" down when `V[x] > 15` names none
(44_keys_timers.md R190, D16). It may depend on the value of `V[x]`, on the key states (so that the spec's choice `mask` is one instance and `up`
another) and on the count of free values drawn. Log 13. -/
opaque freeKeyState : Byte → Vector Bool 16 → Nat → Bool

/-- FREE VALUE. `PLEN_after_failed_load` (70_reset_and_hazards.md R244, 93_implementation_defined.md U8); its use reduces
it to 0 to 3584. Log 30. -/
opaque freePlen : Nat → Nat

end Sys2Proof.Config
end

