-- ==== Sys2Proof/Machine/Params.lean ====
section
/-! DEFINITION. The values of the named parameters (00_scope.md R6; the table at the end of 92_eei_decisions.md). -/

namespace Sys2Proof.Machine

/-- Glyphs 0 to 7 of the default font (10_state.md R36, general knowledge: log 5). -/
def fontLow : Vector (Vector Byte 5) 8 :=
  #v[#v[0xF0, 0x90, 0x90, 0x90, 0xF0], #v[0x20, 0x60, 0x20, 0x20, 0x70],
     #v[0xF0, 0x10, 0xF0, 0x80, 0xF0], #v[0xF0, 0x10, 0xF0, 0x10, 0xF0],
     #v[0x90, 0x90, 0xF0, 0x10, 0x10], #v[0xF0, 0x80, 0xF0, 0x10, 0xF0],
     #v[0xF0, 0x80, 0xF0, 0x90, 0xF0], #v[0xF0, 0x10, 0x20, 0x40, 0x40]]

/-- Glyphs 8 to F of the default font (10_state.md R36, general knowledge: log 5). -/
def fontHigh : Vector (Vector Byte 5) 8 :=
  #v[#v[0xF0, 0x90, 0xF0, 0x90, 0xF0], #v[0xF0, 0x90, 0xF0, 0x10, 0xF0],
     #v[0xF0, 0x90, 0xF0, 0x90, 0x90], #v[0xE0, 0x90, 0xE0, 0x90, 0xE0],
     #v[0xF0, 0x80, 0x80, 0x80, 0xF0], #v[0xE0, 0x90, 0x90, 0x90, 0xE0],
     #v[0xF0, 0x80, 0xF0, 0x80, 0xF0], #v[0xF0, 0x80, 0xF0, 0x80, 0x80]]

/-- The spec's defaults: `FONT` of R36 (log 5), `SUB_EQ_FLAG = 0` (D13, log 17), `WAITKEY_LOST_LATCH = hold` (D15, log 19),
`DRAW_N0 = nop` (D20, log 23); and `KEY_OOR = free`, the model's own choice in place of the default `refuse` of a parameter
that the spec leaves open (R6, D16, log 13). -/
def params : Config.Params where
  font      := fontLow ++ fontHigh
  subEqFlag := 0
  lostLatch := .hold
  drawN0    := .nop
  keyOor    := .free

/-- The `FONT` byte of an address below 80: glyph `a / 5`, row `a mod 5` (10_state.md R34). -/
def fontByte (a : Nat) : Byte :=
  if h : a < 80 then (params.font[a / 5]'(by omega))[a % 5]'(by omega) else 0

end Sys2Proof.Machine
end

