-- ==== Sys2Proof/Machine/State.lean ====
section
/-! DEFINITION. The state of the machine as plain data (10_state.md), the host's moves, the reasons a step can stop, and the
state after construct (R44, R240). -/

namespace Sys2Proof.Machine

/-- Main memory `MEM` (R32): the cells whose content differs from what construct leaves there, by rising address. What an
unlisted address reads as is `Memory.unlisted` (Machine/Memory.lean). -/
abbrev Memory := List Host.Cell

/-- The display grid `DISP` (R37): 32 rows, row 0 at the top, of 64 pixels, column 0 at the left. -/
abbrev Display := Vector (Vector Bool 64) 32

/-- The operations the host has on a machine (70_reset_and_hazards.md R246); construct is `State.reset`. -/
inductive HostMove where
  /-- Call advance, `ticks` 60 Hz intervals having elapsed (60_exceptions.md R200, R215). -/
  | advance (ticks : Nat)
  /-- Load a program image (R244). -/
  | load (image : List Byte)
  /-- Full reset (R242). -/
  | fullReset
  /-- Light reload (R243). -/
  | lightReload
  /-- set-key (R248); an index above 15 is no move of the host (log 29). -/
  | setKey (k : Key) (down : Bool)
  /-- sync-display (R250). -/
  | syncDisplay
  /-- The query is-sound-active (60_exceptions.md R217). -/
  | isSoundActive
  deriving DecidableEq, Repr

/-- Everything the spec gives the machine (R20 to R41), then the model's own input fields. -/
structure State where
  /-- `V[0..15]` (R20); `VF = V[15]` is the flag register (R21). -/
  v     : Vector Byte 16
  /-- `I` (R22). -/
  i     : Word
  /-- `pc` (R23). -/
  pc    : Word
  /-- `STACK[0..15]` (R29). -/
  stack : Vector Word 16
  /-- `SP`, the number of frames in use, 0 to 16 (R29, R45). -/
  sp    : Fin 17
  /-- `DT` (R27). -/
  dt    : Byte
  /-- `ST` (R28). -/
  st    : Byte
  /-- `KL`, the micro-state of `wait-key` (R31). -/
  kl    : Option Key
  /-- `MEM` (R32). -/
  mem   : Memory
  /-- `DISP` (R37). -/
  disp  : Display
  /-- `DCHG` (R38). -/
  dchg  : Bool
  /-- `KEY[0..15]`, true for down (R39). -/
  key   : Vector Bool 16
  /-- `PLEN` (R41). -/
  plen  : Nat
  /-- MODEL'S OWN (log 14): the host's pending moves, the first to be performed first. -/
  host  : List HostMove
  /-- MODEL'S OWN (log 12): the bytes lined up on the input `rnd` (70_reset_and_hazards.md R251). -/
  rndIn : List Byte
  /-- MODEL'S OWN (log 15): how many free values have been drawn. -/
  draws : Nat
  deriving DecidableEq, Repr

/-- The four emulation errors (60_exceptions.md R220), and the fault of one value of a parameter. Each carries the state it leaves (R206): what was written before the
raise is kept, nothing else is changed. The four errors are SAFE stops: the hardware would accept a further advance (R208, R209,
log 1). -/
inductive Fault where
  /-- Raised by the fetch, `draw`, `load-regs`, `store-bcd`, `store-regs` and the host's load for a byte address of 4096 or
  more (R201, R202); carries the address (log 28). -/
  | memoryOutOfBounds (address : Nat) (left : State)
  /-- Raised by the decode of a word that selects no row (R203); carries the opcode. -/
  | unknownInstruction (opcode : Word) (left : State)
  /-- Raised by `return` with no frame (R204). -/
  | stackEmpty (left : State)
  /-- Raised by `call` with sixteen frames (R205). -/
  | stackOverflow (left : State)
  /-- No error of the spec's taxonomy (R220): the fault of `skip-if-key` and `skip-if-not-key` with `V[x] > 15` under
  `KEY_OOR = fault` only (92_eei_decisions.md D16), so never under the model's parameters (log 13); carries `V[x]`. Safe. -/
  | keyOutOfRange (value : Byte) (left : State)
  deriving DecidableEq, Repr

/-- Refusals. Under its parameters the model makes none: every instruction has its meaning. -/
inductive Refusal where
  /-- Raised by an arm of `exec` whose instruction has no meaning yet (none): safe. -/
  | notModelled (mnemonic : String)
  /-- Raised by `skip-if-key` and `skip-if-not-key` with `V[x] > 15` under `KEY_OOR = refuse` only (92_eei_decisions.md D16), so
  never under the model's parameters (log 13); carries `V[x]`: safe. -/
  | keyOutOfRange (value : Byte)
  deriving DecidableEq, Repr

/-- The result of an operation on the machine. -/
abbrev Result := Host.Outcome State Fault Refusal

/-- The machine after construct (R44, R240): `pc` at the program origin, keys up, memory as construct leaves it, and every
other value as the spec's decisions D7, D8 and D28 have it (log 7, 8, 9). The model's own fields are empty (log 15). -/
def State.reset : State where
  v     := Vector.replicate 16 0
  i     := 0
  pc    := BitVec.ofNat 16 Config.programOrigin
  stack := Vector.replicate 16 0
  sp    := 0
  dt    := 0
  st    := 0
  kl    := none
  mem   := []
  disp  := Vector.replicate 32 (Vector.replicate 64 false)
  dchg  := true
  key   := Vector.replicate 16 false
  plen  := 0
  host  := []
  rndIn := []
  draws := 0

end Sys2Proof.Machine
end

