-- ==== Sys2Proof/Machine/Memory.lean ====
section
/-! DEFINITION. Main memory as plain storage (10_state.md R32; 20_memory.md R68): what an unlisted address reads as, the
reading and writing of one cell, and the canonical form. The bounds check stands in Machine/Ops.lean. -/

namespace Sys2Proof.Machine

/-- What an unlisted address reads as: the contents at construct (10_state.md R44): the font from 0x000 to 0x04F, zero
elsewhere (log 5, 7, 10). -/
def Memory.unlisted (a : Nat) : Byte := fontByte a

/-- The byte at an address. -/
def Memory.read : Memory → Nat → Byte
  | [], a => Memory.unlisted a
  | (b, w) :: rest, a => if b = a then w else Memory.read rest a

/-- Write one byte; writing what an unlisted address reads as removes the entry. -/
def Memory.write : Memory → Nat → Byte → Memory
  | [], a, x => if x = Memory.unlisted a then [] else [(a, x)]
  | (b, w) :: rest, a, x =>
    if b < a then (b, w) :: Memory.write rest a x
    else if b = a then (if x = Memory.unlisted a then rest else (a, x) :: rest)
    else (if x = Memory.unlisted a then (b, w) :: rest else (a, x) :: (b, w) :: rest)

/-- Every entry from this point on has an address of `low` or more, addresses rise strictly and stay below 4096, and no
entry equals what an unlisted address reads as. -/
def Memory.wfFrom : Nat → Memory → Bool
  | _, [] => true
  | low, (a, x) :: rest =>
    decide (low ≤ a) && decide (a < Config.memSize) && decide (x ≠ Memory.unlisted a) && Memory.wfFrom (a + 1) rest

/-- The canonical form of a memory. -/
def Memory.wf (m : Memory) : Bool := Memory.wfFrom 0 m

/-- 20_memory.md R67: `MEM[a] <- 0x00` for the `count` addresses from `low` on. -/
def Memory.zero : Memory → Nat → Nat → Memory
  | m, _, 0 => m
  | m, low, count + 1 => Memory.zero (Memory.write m low 0) (low + 1) count

end Sys2Proof.Machine
end

