-- ==== Sys2Proof/Machine/Ops.lean ====
section
/-! DEFINITION. The named operations over registers, memory, stack, keys and inputs, and what raising an error does
(00_scope.md R9; 20_memory.md; 10_state.md R29; 60_exceptions.md R206, R208). -/

namespace Sys2Proof.Machine

/-! ### Errors -/

/-- R206: `raise E(info)`. The operation ends here; the error is its result; nothing is saved, pushed or redirected, and the
state is left as it stands. The one way an error is taken. -/
def raise (e : State → Fault) (s : State) : Result := .fault (e s)

/-- The state an error leaves (R206). -/
def Fault.left : Fault → State
  | .memoryOutOfBounds _ s => s
  | .unknownInstruction _ s => s
  | .stackEmpty s => s
  | .stackOverflow s => s
  | .keyOutOfRange _ s => s

/-- R208: there is no return from an error; a caller that advances again goes on from the state the error left, with no
trace of the error. -/
def resume (r : Fault) : State := Fault.left r

/-- Go on with the state of a completed part; an error of the part ends the whole (R206). -/
def andThen (o : Result) (f : State → Result) : Result :=
  match o with
  | .next s => f s
  | .fault r => .fault r
  | .refused r => .refused r

/-! ### Registers -/

/-- `V[r]` (00_scope.md R9). -/
def readV (s : State) (r : Reg) : Byte := s.v[r]

/-- `V[r] <- b` (00_scope.md R9). -/
def writeV (r : Reg) (b : Byte) (s : State) : State := { s with v := s.v.set r b }

/-- The flag register, `V[15]` (10_state.md R21, log 4). -/
def vF : Reg := Config.flagReg

/-- `I <- a`. -/
def setI (a : Word) (s : State) : State := { s with i := a }

/-- `pc <- a`. -/
def setPc (a : Word) (s : State) : State := { s with pc := a }

/-- `DT <- b`. -/
def setDt (b : Byte) (s : State) : State := { s with dt := b }

/-- `ST <- b`. -/
def setSt (b : Byte) (s : State) : State := { s with st := b }

/-- `KL <- k`. -/
def setKl (k : Option Key) (s : State) : State := { s with kl := k }

/-- The grid and the changed flag after an operation of the Display (43_display.md R182). -/
def setDisplay (d : Display) (changed : Bool) (s : State) : State := { s with disp := d, dchg := changed }

/-- A skip: `pc <- pc + 2` if the condition holds (10_state.md R24). -/
def skipIf (c : Bool) (s : State) : State := if c then setPc (s.pc + 2) s else s

/-- `pc <- pc - 2`: the instruction is issued again (44_keys_timers.md R192). -/
def rewind (s : State) : State := setPc (s.pc - 2) s

/-! ### The call stack -/

/-- R29: push, or StackOverflow with nothing pushed (R30). -/
def push (a : Word) (s : State) : Result :=
  if h : s.sp.val < 16 then
    .next { s with stack := s.stack.set s.sp.val a h, sp := ⟨s.sp.val + 1, by omega⟩ }
  else raise .stackOverflow s

/-- R29, R120: pop into `pc`, or StackEmpty with nothing changed (R30). -/
def popToPc (s : State) : Result :=
  if h : s.sp.val = 0 then raise .stackEmpty s
  else .next { s with sp := ⟨s.sp.val - 1, by omega⟩, pc := s.stack[s.sp.val - 1]'(by omega) }

/-! ### Memory -/

/-- The byte at an address, without the bounds check. -/
def byteAt (s : State) (a : Nat) : Byte := Memory.read s.mem a

/-- R62: `MemRead(a, 1)`. -/
def memRead (a : Nat) (s : State) : Except Fault Byte :=
  if a < Config.memSize then .ok (byteAt s a) else .error (.memoryOutOfBounds a s)

/-- R63: `MemWrite(a, 1, v)`. -/
def memWrite (a : Nat) (b : Byte) (s : State) : Result :=
  if a < Config.memSize then .next { s with mem := Memory.write s.mem a b } else raise (.memoryOutOfBounds a) s

/-- R64: `MemRead(a, 2)`: the byte at the lower address is the more significant. -/
def memReadWord (a : Nat) (s : State) : Except Fault Word :=
  match memRead a s with
  | .error r => .error r
  | .ok hi =>
    match memRead (a + 1) s with
    | .error r => .error r
    | .ok lo => .ok (wordOfBytes hi lo)

/-- The bytes at `a`, `a + 1`, ..., read in ascending order up to the first that does not exist (R73). -/
def readBytes : Nat → Nat → State → Except Fault (List Byte)
  | _, 0, _ => .ok []
  | a, n + 1, s =>
    match memRead a s with
    | .error r => .error r
    | .ok b =>
      match readBytes (a + 1) n s with
      | .error r => .error r
      | .ok bs => .ok (b :: bs)

/-- R66: the range read `MEM[lo..hi-1]`; it rejects an empty range and a bound out of range. R66 does not say
which address the error carries, nor whether `hi = 4096` is in range: DESIGN CHOICE (log 35), the start of an empty range,
else the first byte of the range that does not exist; 4096 is in range. -/
def readRange (lo hi : Nat) (s : State) : Except Fault (List Byte) :=
  if lo < hi then
    if hi ≤ Config.memSize then readBytes lo (hi - lo) s else .error (.memoryOutOfBounds (max lo Config.memSize) s)
  else .error (.memoryOutOfBounds lo s)

/-- The bytes written from `a` on in ascending order; those before the first that does not exist stay written (R65,
R73). -/
def storeBytes : Nat → List Byte → State → Result
  | _, [], s => .next s
  | a, b :: bs, s => andThen (memWrite a b s) (storeBytes (a + 1) bs)

/-- Registers loaded from `a` on in ascending order; those before the first byte that does not exist stay loaded (R73). -/
def loadBytes : Nat → List Reg → State → Result
  | _, [], s => .next s
  | a, r :: rs, s =>
    match memRead a s with
    | .error e => .fault e
    | .ok b => loadBytes (a + 1) rs (writeV r b s)

/-! ### Keys and inputs -/

/-- R40: `LowestKeyDown()`. -/
def lowestKeyDown (s : State) : Option Key := (List.finRange 16).find? fun k => s.key[k]

/-- A further free value has been drawn. -/
def countDraw (s : State) : State := { s with draws := s.draws + 1 }

/-- The byte on the input `rnd` and the state after it is consumed (41_alu.md R152): the first byte lined up, or a free value
(log 12). -/
def nextRandom (s : State) : Byte × State :=
  match s.rndIn with
  | b :: rest => (b, { s with rndIn := rest })
  | [] => (Config.freeRandom s.draws, countDraw s)

/-! ### Timers -/

/-- One tick of the delay timer (60_exceptions.md R214). -/
def tickDelay (d : Byte) : Byte := if 0 < d.toNat then d - 1 else d

/-- One tick of the sound timer (60_exceptions.md R214): never below 1, and 0 stays 0 (log 18). -/
def tickSound (d : Byte) : Byte := if 1 < d.toNat then d - 1 else d

/-- A function applied a number of times. -/
def iterate (f : Byte → Byte) : Nat → Byte → Byte
  | 0, b => b
  | n + 1, b => iterate f n (f b)

/-- R214: `Tick()`. -/
def tick (s : State) : State := { s with dt := tickDelay s.dt, st := tickSound s.st }

/-- R200, R215: `repeat ticks times: Tick()`, each timer on its own (both are stepped by every tick). -/
def ticks (n : Nat) (s : State) : State := { s with dt := iterate tickDelay n s.dt, st := iterate tickSound n s.st }

/-- R217: `IsSoundActive()`. -/
def soundActive (s : State) : Bool := decide (1 < s.st.toNat)

end Sys2Proof.Machine
end

