-- ==== Sys2Proof/Machine/Operands.lean ====
section
/-! DEFINITION. The operand forms of the instructions (30_encoding.md R94; 42_index_memory.md R166; 43_display.md R181;
44_keys_timers.md R190). Register and immediate operands need no function: they are `readV` and the operand itself. -/

namespace Sys2Proof.Machine

/-- R166: the address of the `k`-th byte of an access through `I`, an exact natural number (log 21). -/
def effectiveAddress (s : State) (k : Nat) : Nat := s.i.toNat + k

/-- R164, R165: the registers `V[0]` to `V[x]`, in ascending order. -/
def regsUpTo (x : Reg) : List Reg := (List.finRange 16).take (x.val + 1)

/-- R163: hundreds, tens and ones of a byte, one digit a byte. -/
def bcdDigits (b : Byte) : List Byte :=
  [BitVec.ofNat 8 (b.toNat / 100), BitVec.ofNat 8 (b.toNat / 10 % 10), BitVec.ofNat 8 (b.toNat % 10)]

/-- R123: the target of `jump-offset`, not reduced to 12 bits (log 26). -/
def offsetTarget (nnn : Word) (s : State) : Word := nnn + (readV s 0).setWidth 16

/-- R162: the address of the glyph named by a register's value, with no mask (log 20). -/
def glyphAddress (b : Byte) : Word := BitVec.ofNat 16 (Config.fontBase + b.toNat * Config.fontGlyphBytes)

/-- R181: the left column of a sprite. -/
def spriteColumn (b : Byte) : Nat := b.toNat % Config.dispW

/-- R181: the top row of a sprite. -/
def spriteRow (b : Byte) : Nat := b.toNat % Config.dispH

/-- R190, R191: go on with whether the key named by a register's value is down: key 0 to 15 as it stands. A value above 15 names
no key, and `KEY_OOR` says what happens (D16): a refusal, the key of its low four bits, an up key, a fault, or a free value
(log 13). -/
def testKey (oor : Config.KeyOor) (b : Byte) (s : State) (go : Bool → State → Result) : Result :=
  if h : b.toNat < 16 then go s.key[b.toNat] s
  else
    match oor with
    | .refuse => .refused (.keyOutOfRange b)
    | .mask => go (s.key[b.toNat % 16]'(Nat.mod_lt _ (by decide))) s
    | .up => go false s
    | .fault => raise (.keyOutOfRange b) s
    | .free => go (Config.freeKeyState b s.key s.draws) (countDraw s)

end Sys2Proof.Machine
end

