-- ==== Sys2Proof/Machine/Flags.lean ====
section
/-! DEFINITION. Every computation of the flag register (10_state.md R21; 41_alu.md R140, R144 to R151, R153). The flag is the
whole byte 0x00 or 0x01. -/

namespace Sys2Proof.Machine

/-- The byte 1 or 0. -/
def flagByte (c : Bool) : Byte := if c then 1 else 0

/-- R144 to R146: the logic operations reset the flag. -/
def logicFlag : Byte := 0

/-- R147: carry out of the exact sum. -/
def carryFlag (a b : Byte) : Byte := flagByte (decide (255 < a.toNat + b.toNat))

/-- R148, R149: 1 when the minuend is strictly greater than the subtrahend, `SUB_EQ_FLAG` when they are equal, else 0
(log 17). -/
def minuendGreaterFlag (eqFlag minuend subtrahend : Byte) : Byte :=
  if minuend = subtrahend then eqFlag else flagByte (decide (subtrahend.toNat < minuend.toNat))

/-- R150: the bit that a right shift shifts out. -/
def shiftedOutRight (b : Byte) : Byte := flagByte (b.getLsbD 0)

/-- R151: the bit that a left shift shifts out. -/
def shiftedOutLeft (b : Byte) : Byte := flagByte (b.getLsbD 7)

/-- R140: the result goes to `V[x]` first, the flag to `VF` last, so that with `x = F` the flag remains (log 16). -/
def writeResultThenFlag (x : Reg) (result flag : Byte) (s : State) : State := writeV vF flag (writeV x result s)

end Sys2Proof.Machine
end

