-- ==== Sys2Proof/Machine/Alu.lean ====
section
/-! DEFINITION. Register load, arithmetic, logic, shift and random (41_alu.md). -/

namespace Sys2Proof.Machine

/-- R141: `V[x] <- nn`. -/
def execLoadImm (x : Reg) (nn : Byte) (s : State) : Result := .next (writeV x nn s)

/-- R142: `V[x] <- (V[x] + nn) mod 256`, no flag. -/
def execAddImm (x : Reg) (nn : Byte) (s : State) : Result := .next (writeV x (readV s x + nn) s)

/-- R143: `V[x] <- V[y]`. -/
def execSet (x y : Reg) (s : State) : Result := .next (writeV x (readV s y) s)

/-- R144. -/
def execOr (x y : Reg) (s : State) : Result :=
  .next (writeResultThenFlag x (readV s x ||| readV s y) logicFlag s)

/-- R145. -/
def execAnd (x y : Reg) (s : State) : Result :=
  .next (writeResultThenFlag x (readV s x &&& readV s y) logicFlag s)

/-- R146. -/
def execXor (x y : Reg) (s : State) : Result :=
  .next (writeResultThenFlag x (readV s x ^^^ readV s y) logicFlag s)

/-- R147: sum modulo 256, carry out. -/
def execAdd (x y : Reg) (s : State) : Result :=
  .next (writeResultThenFlag x (readV s x + readV s y) (carryFlag (readV s x) (readV s y)) s)

/-- R148: `V[x] - V[y]` modulo 256. -/
def execSub (x y : Reg) (s : State) : Result :=
  .next (writeResultThenFlag x (readV s x - readV s y)
    (minuendGreaterFlag params.subEqFlag (readV s x) (readV s y)) s)

/-- R149: `V[y] - V[x]` modulo 256, into `V[x]`. -/
def execSubn (x y : Reg) (s : State) : Result :=
  .next (writeResultThenFlag x (readV s y - readV s x)
    (minuendGreaterFlag params.subEqFlag (readV s y) (readV s x)) s)

/-- R150: the source is `V[y]`. -/
def execShr (x y : Reg) (s : State) : Result :=
  .next (writeResultThenFlag x (readV s y >>> 1) (shiftedOutRight (readV s y)) s)

/-- R151: the source is `V[y]`. -/
def execShl (x y : Reg) (s : State) : Result :=
  .next (writeResultThenFlag x (readV s y <<< 1) (shiftedOutLeft (readV s y)) s)

/-- R152: `V[x] <- rnd & nn`, consuming one byte of the input `rnd`. -/
def execRandom (x : Reg) (nn : Byte) (s : State) : Result :=
  .next (writeV x ((nextRandom s).1 &&& nn) (nextRandom s).2)

end Sys2Proof.Machine
end

