-- ==== Sys2Proof/Machine/Control.lean ====
section
/-! DEFINITION. Control transfer (40_control_transfer.md). In every meaning `pc` already holds the address of the instruction
plus 2 (00_scope.md R11). -/

namespace Sys2Proof.Machine

/-- R120: pop the call stack into `pc`. -/
def execReturn (s : State) : Result := popToPc s

/-- R121: `pc <- nnn`. -/
def execJump (nnn : Word) (s : State) : Result := .next (setPc nnn s)

/-- R122: push the address after the call, then `pc <- nnn`. -/
def execCall (nnn : Word) (s : State) : Result := andThen (push s.pc s) fun s => .next (setPc nnn s)

/-- R123: `pc <- nnn + V[0]`. -/
def execJumpOffset (nnn : Word) (s : State) : Result := .next (setPc (offsetTarget nnn s) s)

/-- R124: skip if `V[x] = nn`. -/
def execSkipEqImm (x : Reg) (nn : Byte) (s : State) : Result := .next (skipIf (readV s x == nn) s)

/-- R125: skip if `V[x] != nn`. -/
def execSkipNeImm (x : Reg) (nn : Byte) (s : State) : Result := .next (skipIf (readV s x != nn) s)

/-- R126: skip if `V[x] = V[y]`. -/
def execSkipEqReg (x y : Reg) (s : State) : Result := .next (skipIf (readV s x == readV s y) s)

/-- R127: skip if `V[x] != V[y]`. -/
def execSkipNeReg (x y : Reg) (s : State) : Result := .next (skipIf (readV s x != readV s y) s)

end Sys2Proof.Machine
end

