-- ==== Sys2Proof/Machine/Display.lean ====
section
/-! DEFINITION. The Display component and its two instructions (43_display.md). -/

namespace Sys2Proof.Machine

/-- R182: `Test(r, c)`; the instructions call it inside the grid only. -/
def testPixel (d : Display) (r c : Nat) : Bool :=
  if h : r < 32 ∧ c < 64 then (d[r]'h.1)[c]'h.2 else false

/-- R182: `Plot(r, c, b)`: exclusive or with the existing pixel; the instructions call it inside the grid only. -/
def plotPixel (d : Display) (r c : Nat) (b : Bool) : Display :=
  if h : r < 32 ∧ c < 64 then d.set r ((d[r]'h.1).set c ((d[r]'h.1)[c]'h.2 ^^ b) h.2) h.1 else d

/-- R182: the grid after `Clear()`. -/
def blankDisplay : Display := Vector.replicate 32 (Vector.replicate 64 false)

/-- What a draw works on: the grid, whether an on pixel was met (`hit`) and whether a pixel was toggled. -/
structure Canvas where
  disp    : Display
  hit     : Bool
  toggled : Bool
  deriving DecidableEq, Repr

/-- R181: the bit of a sprite byte that lies `j` columns from the left; bit 7 is the leftmost (log 6). -/
def spriteBit (b : Byte) (j : Nat) : Bool := b.getLsbD (7 - j)

/-- R181, the inner body: a bit outside the grid is clipped, a 0 bit leaves its pixel alone. -/
def plotBit (r c : Nat) (b : Bool) (k : Canvas) : Canvas :=
  if r ≤ 31 ∧ c ≤ 63 ∧ b = true then
    { disp := plotPixel k.disp r c true, hit := k.hit || testPixel k.disp r c, toggled := true }
  else k

/-- R181: one sprite row, columns `x0` to `x0 + 7` from left to right. -/
def plotRow (r x0 : Nat) (b : Byte) (k : Canvas) : Canvas :=
  (List.range 8).foldl (fun k j => plotBit r (x0 + j) (spriteBit b j) k) k

/-- R181: the sprite rows from grid row `r` downward (log 6). -/
def plotRows : Nat → Nat → List Byte → Canvas → Canvas
  | _, _, [], k => k
  | r, x0, b :: bs, k => plotRows (r + 1) x0 bs (plotRow r x0 b k)

/-- R181: all `n` rows are read before any pixel changes (log 22); with `n = 0` nothing is read, or, under the other value of
`DRAW_N0`, the empty range is rejected (R66, log 23). -/
def readSprite (n0 : Config.DrawN0) (n : Nat) (s : State) : Except Fault (List Byte) :=
  if n = 0 ∧ n0 = .fault then readRange (effectiveAddress s 0) (effectiveAddress s n) s
  else readBytes (effectiveAddress s 0) n s

/-- R181: draw the rows read, at the coordinates in `V[x]` and `V[y]`; `DCHG` is raised when a pixel was toggled (log 24); the
flag is written last. -/
def drawSprite (x y : Reg) (rows : List Byte) (s : State) : State :=
  let k := plotRows (spriteRow (readV s y)) (spriteColumn (readV s x)) rows ⟨s.disp, false, false⟩
  writeV vF (flagByte k.hit) (setDisplay k.disp (s.dchg || k.toggled) s)

/-- R180: every pixel off, `DCHG` raised. -/
def execClearScreen (s : State) : Result := .next (setDisplay blankDisplay true s)

/-- R181. -/
def execDraw (x y : Reg) (n : Nat) (s : State) : Result :=
  match readSprite params.drawN0 n s with
  | .error r => .fault r
  | .ok rows => .next (drawSprite x y rows s)

end Sys2Proof.Machine
end

