-- ==== Sys2Proof/Machine/Index.lean ====
section
/-! DEFINITION. Index register and memory (42_index_memory.md). -/

namespace Sys2Proof.Machine

/-- R160: `I <- nnn`. -/
def execSetIndex (nnn : Word) (s : State) : Result := .next (setI nnn s)

/-- R161: `I <- (I + V[x]) mod 65536`, no flag. -/
def execAddIndex (x : Reg) (s : State) : Result := .next (setI (s.i + (readV s x).setWidth 16) s)

/-- R162: `I <- FONT_BASE + V[x] * 5`. -/
def execLoadFontAddr (x : Reg) (s : State) : Result := .next (setI (glyphAddress (readV s x)) s)

/-- R163: the three digits of `V[x]` at `I`, `I + 1`, `I + 2`. -/
def execStoreBcd (x : Reg) (s : State) : Result := storeBytes (effectiveAddress s 0) (bcdDigits (readV s x)) s

/-- R164, R165: `I <- I + x + 1`, after the last byte. -/
def advanceIndex (x : Reg) (s : State) : Result := .next (setI (s.i + BitVec.ofNat 16 (x.val + 1)) s)

/-- R164: `V[0]` to `V[x]` to memory from `I` on. -/
def execStoreRegs (x : Reg) (s : State) : Result :=
  andThen (storeBytes (effectiveAddress s 0) ((regsUpTo x).map (readV s)) s) (advanceIndex x)

/-- R165: memory from `I` on to `V[0]` to `V[x]`. -/
def execLoadRegs (x : Reg) (s : State) : Result :=
  andThen (loadBytes (effectiveAddress s 0) (regsUpTo x) s) (advanceIndex x)

end Sys2Proof.Machine
end

