-- ==== Sys2Proof/Machine/Keys.lean ====
section
/-! DEFINITION. Keys and timers (44_keys_timers.md). -/

namespace Sys2Proof.Machine

/-- R190: skip if the key named by `V[x]` is down. -/
def execSkipIfKey (x : Reg) (s : State) : Result :=
  testKey params.keyOor (readV s x) s fun down s => .next (skipIf down s)

/-- R191: skip if the key named by `V[x]` is up. -/
def execSkipIfNotKey (x : Reg) (s : State) : Result :=
  testKey params.keyOor (readV s x) s fun down s => .next (skipIf (!down) s)

/-- R192, awaiting a key: latch the lowest key down, if any, and issue the instruction again. -/
def awaitKey (s : State) : State :=
  match lowestKeyDown s with
  | none => rewind s
  | some k => rewind (setKl (some k) s)

/-- R192, a key is latched and up at this poll: keep the latch, or, under the other value of `WAITKEY_LOST_LATCH`, start over
(log 19). -/
def latchLost (lost : Config.LostLatch) (s : State) : State :=
  match lost with
  | .hold => rewind s
  | .restart => awaitKey (setKl none s)

/-- R192: latch a key at one poll, store it at a later poll that sees it down. -/
def execWaitKey (x : Reg) (s : State) : Result :=
  match s.kl with
  | none => .next (awaitKey s)
  | some k =>
    if s.key[k] then .next (setKl none (writeV x (BitVec.ofNat 8 k.val) s))
    else .next (latchLost params.lostLatch s)

/-- R193: `V[x] <- DT`. -/
def execLoadDelay (x : Reg) (s : State) : Result := .next (writeV x s.dt s)

/-- R194: `DT <- V[x]`. -/
def execSetDelay (x : Reg) (s : State) : Result := .next (setDt (readV s x) s)

/-- R195: `ST <- V[x]`. -/
def execSetSound (x : Reg) (s : State) : Result := .next (setSt (readV s x) s)

end Sys2Proof.Machine
end

