-- ==== Sys2Proof/Machine/Advance.lean ====
section
/-! DEFINITION. `Advance(ticks)` (60_exceptions.md R200): ticks, fetch, `pc + 2`, decode, execute. -/

namespace Sys2Proof.Machine

/-- The fetch: the big-endian word at `pc` (20_memory.md R64, R75: from the memory as it stands). It changes nothing; where it
fails, `pc` is not advanced (R201, log 25). -/
def fetch (s : State) : Except Fault Word := memReadWord s.pc.toNat s

/-- R200 after the fetch: `pc` moves past the opcode, which is decoded and executed; an unknown one ends the advance there
(R203). -/
def runOpcode (op : Word) (s : State) : Result :=
  match decode op with
  | .ok i => exec i (setPc (s.pc + 2) s)
  | .error _ => raise (.unknownInstruction op) (setPc (s.pc + 2) s)

/-- R200: the one operation that executes an instruction. The ticks are not undone if the rest fails. -/
def advance (n : Nat) (s : State) : Result :=
  match fetch (ticks n s) with
  | .error r => .fault r
  | .ok op => runOpcode op (ticks n s)

end Sys2Proof.Machine
end

