-- ==== Sys2Proof/Machine/HostOps.lean ====
section
/-! DEFINITION. The operations of the host between two advances (70_reset_and_hazards.md). Construct (R240) is
`State.reset`. -/

namespace Sys2Proof.Machine

/-- R241: the CPU reset, a part of both resets. -/
def cpuReset (s : State) : State :=
  { s with
    v := Vector.replicate 16 0, i := 0, pc := BitVec.ofNat 16 Config.programOrigin,
    stack := Vector.replicate 16 0, sp := 0, dt := 0, st := 0, kl := none }

/-- R241: the display reset (log 8). -/
def displayReset (s : State) : State := setDisplay blankDisplay true s

/-- R241: the input reset. -/
def inputReset (s : State) : State := { s with key := Vector.replicate 16 false }

/-- R67: zero the memory from `low` to its end. -/
def zeroFrom (low : Nat) (s : State) : State := { s with mem := Memory.zero s.mem low (Config.memSize - low) }

/-- R242: full reset; the memory below the program origin, the font included, stays as it is (log 31). -/
def fullReset (s : State) : State :=
  { zeroFrom Config.programOrigin (inputReset (displayReset (cpuReset s))) with plen := 0 }

/-- R243: light reload: the memory is cleared from the end of the last loaded program on. -/
def lightReload (s : State) : State :=
  zeroFrom (Config.programOrigin + s.plen) (inputReset (displayReset (cpuReset s)))

/-- The state in which `PLEN` is a free value of 0 to 3584 (R244, log 30). -/
def plenUnknown (s : State) : State :=
  countDraw { s with plen := Config.freePlen s.draws % (Config.programMax + 1) }

/-- R244: load: the bulk write of the image at the program origin (R65), then `PLEN`; an image that does not fit ends in
MemoryOutOfBounds at the first byte out of range, with the bytes before it written. -/
def load (image : List Byte) (s : State) : Result :=
  match storeBytes Config.programOrigin image s with
  | .next t => .next { t with plen := image.length }
  | .fault (.memoryOutOfBounds a t) => raise (.memoryOutOfBounds a) (plenUnknown t)
  | .fault r => .fault r
  | .refused r => .refused r

/-- R248: set-key. -/
def setKey (k : Key) (down : Bool) (s : State) : State := { s with key := s.key.set k down }

/-- R250: what sync-display hands to the consumer: the whole grid, or nothing. -/
def syncFrame (s : State) : Option Display := if s.dchg then some s.disp else none

/-- R250: sync-display clears the changed flag. -/
def syncDisplay (s : State) : State := { s with dchg := false }

/-- One move of the host (R246). -/
def perform (m : HostMove) (s : State) : Result :=
  match m with
  | .advance n => advance n s
  | .load image => load image s
  | .fullReset => .next (fullReset s)
  | .lightReload => .next (lightReload s)
  | .setKey k down => .next (setKey k down s)
  | .syncDisplay => .next (syncDisplay s)
  | .isSoundActive => .next s

/-- The host's next move and the state after it is taken up: the first of the pending ones, or, when none is pending, advance
with a free number of ticks (log 11, 14). -/
def nextMove (s : State) : HostMove × State :=
  match s.host with
  | m :: rest => (m, { s with host := rest })
  | [] => (.advance (Config.freeTicks s.draws), countDraw s)

/-- Drop the pending moves that stand before the next advance. -/
def skipToAdvance : List HostMove → List HostMove
  | .advance n :: rest => .advance n :: rest
  | .load _ :: rest => skipToAdvance rest
  | .fullReset :: rest => skipToAdvance rest
  | .lightReload :: rest => skipToAdvance rest
  | .setKey _ _ :: rest => skipToAdvance rest
  | .syncDisplay :: rest => skipToAdvance rest
  | .isSoundActive :: rest => skipToAdvance rest
  | [] => []

/-- Where the next opcode can be stored: at `pc`, or, where no fetch succeeds at `pc` (R201), at the program origin. -/
def fetchPlace (s : State) : Word := if s.pc.toNat < 4095 then s.pc else BitVec.ofNat 16 Config.programOrigin

/-- `s` with an opcode stored where the next advance fetches, and no move of the host before that advance (log 33). -/
def placeOpcode (op : Word) (s : State) : State :=
  let a := (fetchPlace s).toNat
  { s with
    pc := fetchPlace s, host := skipToAdvance s.host,
    mem := Memory.write (Memory.write s.mem a (hiByte op)) (a + 1) (loByte op) }

end Sys2Proof.Machine
end

