-- ==== Sys2Proof/Machine/Step.lean ====
section
/-! DEFINITION. One step of the whole: the host's next move is taken up and performed (00_scope.md R5); with no move pending
the step is an advance (60_exceptions.md R200). -/

namespace Sys2Proof.Machine

/-- One step. -/
def step (s : State) : Host.Outcome State Fault Refusal := perform (nextMove s).1 (nextMove s).2

/-- `s` with the instruction whose bits are `w` (numbered as spec/opcode_table.json numbers them) stored where the next step
fetches it. -/
def State.withFetchWord (s : State) (nbits w : Nat) : State := placeOpcode (BitVec.ofNat 16 (w % 2 ^ nbits)) s

end Sys2Proof.Machine
end

