-- ==== Sys2Proof/Safety.lean ====
section
/-! DEFINITION. The terms in which claims are stated: what a safe run is, the invariant of the machine, what an operation
leaves alone, and the clear form of what `draw` plots. -/

namespace Sys2Proof.Machine

/-! ### Safe runs -/

/-- 60_exceptions.md R209: a run of `k` steps in which no advance and no load returns an error. -/
def safeFor : Nat → State → Prop
  | 0, _ => True
  | k + 1, s => ∃ t, step s = .next t ∧ safeFor k t

/-- The conditions that every step keeps: memory in canonical form inside the address space, `PLEN` at most the size of the
program region (10_state.md R41), `pc` at most 0x10FE and every frame in use at most 0x1000 (10_state.md R26). -/
structure Inv (s : State) : Prop where
  mem    : Memory.wf s.mem = true
  plen   : s.plen ≤ Config.programMax
  pc     : s.pc.toNat ≤ 0x10FE
  frames : ∀ j : Fin 16, j.val < s.sp.val → s.stack[j].toNat ≤ 0x1000

/-! ### Frames -/

/-- Every general register reads as before. -/
def sameV (s t : State) : Prop := ∀ r : Reg, readV t r = readV s r

/-- The call stack is as before. -/
def sameStack (s t : State) : Prop := t.stack = s.stack ∧ t.sp = s.sp

/-- Both timers are as before. -/
def sameTimers (s t : State) : Prop := t.dt = s.dt ∧ t.st = s.st

/-- Every byte of memory reads as before. -/
def sameMem (s t : State) : Prop := ∀ a : Nat, byteAt t a = byteAt s a

/-- Every byte of memory outside the `count` bytes from `base` on reads as before. -/
def sameMemOutside (base count : Nat) (s t : State) : Prop :=
  ∀ a : Nat, ¬(base ≤ a ∧ a < base + count) → byteAt t a = byteAt s a

/-- The grid and its changed flag are as before. -/
def sameDisplay (s t : State) : Prop := t.disp = s.disp ∧ t.dchg = s.dchg

/-- What only the host writes is as before: the keys, `PLEN` and the host's pending moves. -/
def sameHostSide (s t : State) : Prop := t.key = s.key ∧ t.plen = s.plen ∧ t.host = s.host

/-- No input byte was consumed and no free value drawn. -/
def sameSupply (s t : State) : Prop := t.rndIn = s.rndIn ∧ t.draws = s.draws

/-- Everything but the general registers, `pc`, `I`, the stack, the timers, the latch, memory and the display. -/
def sameRest (s t : State) : Prop := sameHostSide s t ∧ sameSupply s t

/-- At most the general registers differ. -/
def onlyV (s t : State) : Prop :=
  t.i = s.i ∧ t.pc = s.pc ∧ sameStack s t ∧ sameTimers s t ∧ t.kl = s.kl ∧ sameMem s t ∧ sameDisplay s t ∧ sameRest s t

/-- At most `pc` differs. -/
def onlyPc (s t : State) : Prop :=
  sameV s t ∧ t.i = s.i ∧ sameStack s t ∧ sameTimers s t ∧ t.kl = s.kl ∧ sameMem s t ∧ sameDisplay s t ∧ sameRest s t

/-- At most `I` differs. -/
def onlyI (s t : State) : Prop :=
  sameV s t ∧ t.pc = s.pc ∧ sameStack s t ∧ sameTimers s t ∧ t.kl = s.kl ∧ sameMem s t ∧ sameDisplay s t ∧ sameRest s t

/-- At most memory and `I` differ. -/
def onlyMemAndI (s t : State) : Prop :=
  sameV s t ∧ t.pc = s.pc ∧ sameStack s t ∧ sameTimers s t ∧ t.kl = s.kl ∧ sameDisplay s t ∧ sameRest s t

/-- At most the registers and `I` differ. -/
def onlyVAndI (s t : State) : Prop :=
  t.pc = s.pc ∧ sameStack s t ∧ sameTimers s t ∧ t.kl = s.kl ∧ sameMem s t ∧ sameDisplay s t ∧ sameRest s t

/-- At most the registers and the display differ. -/
def onlyVAndDisplay (s t : State) : Prop :=
  t.i = s.i ∧ t.pc = s.pc ∧ sameStack s t ∧ sameTimers s t ∧ t.kl = s.kl ∧ sameMem s t ∧ sameRest s t

/-- At most `pc` and the call stack differ. -/
def onlyPcAndStack (s t : State) : Prop :=
  sameV s t ∧ t.i = s.i ∧ sameTimers s t ∧ t.kl = s.kl ∧ sameMem s t ∧ sameDisplay s t ∧ sameRest s t

/-- At most the timers differ. -/
def onlyTimers (s t : State) : Prop :=
  sameV s t ∧ t.i = s.i ∧ t.pc = s.pc ∧ sameStack s t ∧ t.kl = s.kl ∧ sameMem s t ∧ sameDisplay s t ∧ sameRest s t

/-- Everything but the registers, `pc` and the latch is as before. -/
def onlyVPcLatch (s t : State) : Prop :=
  t.i = s.i ∧ sameStack s t ∧ sameTimers s t ∧ sameMem s t ∧ sameDisplay s t ∧ sameRest s t

/-! ### Resets -/

/-- What the CPU reset, the display reset and the input reset leave (70_reset_and_hazards.md R241): the values are the spec's
decisions D7 and D8 (log 7, 8, 9) but for `pc` and the keys. -/
def afterReset (t : State) : Prop :=
  t.pc = 0x200 ∧ (∀ r : Reg, readV t r = 0) ∧ t.i = 0 ∧ t.dt = 0 ∧ t.st = 0 ∧ t.sp = 0 ∧
  (∀ j : Fin 16, t.stack[j] = 0) ∧ t.kl = none ∧ (∀ r c, r < 32 → c < 64 → testPixel t.disp r c = false) ∧
  t.dchg = true ∧ ∀ k : Key, t.key[k] = false

/-! ### Draw -/

/-- Whether a sprite with the given rows, its top left corner at row `y0` and column `x0`, has a 1 bit over the pixel
(43_display.md R181: bit 7 of a row is its leftmost pixel, row `k` lies `k` rows down). Nothing wraps. -/
def spritePixel (y0 x0 : Nat) (rows : List Byte) (r c : Nat) : Bool :=
  decide (y0 ≤ r ∧ x0 ≤ c ∧ c < x0 + 8) && ((rows[r - y0]?).any fun b => spriteBit b (c - x0))

/-- The bytes at `a`, `a + 1`, ..., `a + n - 1`. -/
def bytesFrom (s : State) (a n : Nat) : List Byte := (List.range n).map fun k => byteAt s (a + k)

/-! ### What a program cannot see -/

/-- The state with the parts blanked that no instruction reads: `ST`, `DCHG`, `PLEN` (10_state.md R47). -/
def hide (s : State) : State := { s with st := 0, dchg := false, plen := 0 }

/-- A result with a function applied to the state it holds: the next state, or the state an error leaves. -/
def mapState (f : State → State) : Result → Result
  | .next s => .next (f s)
  | .fault (.memoryOutOfBounds a s) => .fault (.memoryOutOfBounds a (f s))
  | .fault (.unknownInstruction op s) => .fault (.unknownInstruction op (f s))
  | .fault (.stackEmpty s) => .fault (.stackEmpty (f s))
  | .fault (.stackOverflow s) => .fault (.stackOverflow (f s))
  | .fault (.keyOutOfRange b s) => .fault (.keyOutOfRange b (f s))
  | .refused r => .refused r

/-- The state a result holds: the next state, or the state an error leaves (R206); none for a refusal. -/
def stateAfter : Result → Option State
  | .next s => some s
  | .fault r => some (Fault.left r)
  | .refused _ => none

end Sys2Proof.Machine
end

