-- ==== Sys2Proof/Certificates/Slice0/Obligations.lean ====
section
/-! DEFINITION. The statements put to the provers. Where a clause rests on a choice of the model or on a decision that the spec
marks as its own, the docstring names the log entry. -/

open Sys2Proof Sys2Proof.Machine

/-! ### Encoding -/

/-- Every well-formed instruction, with every operand the encoding admits, is read back from its word. (The patterns are
general knowledge: log 2.) -/
def Obligations.DecodeOfEncodedInstruction : Prop :=
  ∀ i : Instr, wellFormed i = true → decode (encode i) = .ok i

/-- A word that decodes is the word of what it decodes to, which is well-formed: no bit of a legal word is dropped, and every
bit that is no operand is matched. (The patterns are general knowledge: log 2; strict matching is decision D5: log 3.) -/
def Obligations.EncodeOfDecodedWord : Prop :=
  ∀ (op : Word) (i : Instr), decode op = .ok i → encode i = op ∧ wellFormed i = true

/-- The decoder against the opcode map of R95 (log 2; every bit of the mask is matched: log 3): there are 34 rows, no word selects two of them, and a word selects a
row (`op & mask = match`) exactly when it decodes to that row's operation. -/
def Obligations.DecoderFollowsOpcodeMap : Prop :=
  opcodeRows.length = 34 ∧
  (∀ op : Word, ∀ r ∈ opcodeRows, ∀ q ∈ opcodeRows, op &&& r.mask = r.bits → op &&& q.mask = q.bits → r = q) ∧
  (∀ op : Word, ∀ r ∈ opcodeRows,
    (op &&& r.mask = r.bits ↔ ∃ i : Instr, decode op = .ok i ∧ i.mnemonic = r.mnemonic))

/-- The illegal words of R99 (log 2, log 3): exactly these decode to nothing, and the error carries the word. -/
def Obligations.IllegalWordsAreRejected : Prop :=
  ∀ op : Word,
    (decode op = .error (.unknownInstruction op) ↔
      (fieldLead op = 0x0 ∧ op ≠ 0x00E0 ∧ op ≠ 0x00EE) ∨ (fieldLead op = 0x5 ∧ fieldN op ≠ 0) ∨
      (fieldLead op = 0x8 ∧ fieldN op ∈ ([0x8, 0x9, 0xA, 0xB, 0xC, 0xD, 0xF] : List (BitVec 4))) ∨
      (fieldLead op = 0x9 ∧ fieldN op ≠ 0) ∨
      (fieldLead op = 0xE ∧ fieldNN op ∉ ([0x9E, 0xA1] : List Byte)) ∨
      (fieldLead op = 0xF ∧ fieldNN op ∉ ([0x07, 0x0A, 0x15, 0x18, 0x1E, 0x29, 0x33, 0x55, 0x65] : List Byte))) ∧
    (decode op = .error (.unknownInstruction op) ∨ ∃ i : Instr, decode op = .ok i)

/-- R92: each field of R91 is the generic primitive with its mask and shift. -/
def Obligations.FieldsAreExtracted : Prop :=
  ∀ op : Word,
    (fieldLead op).toNat = (extract op 0xF000 12).toNat ∧ (fieldX op).val = (extract op 0x0F00 8).toNat ∧
    (fieldY op).val = (extract op 0x00F0 4).toNat ∧ (fieldN op).toNat = (extract op 0x000F 0).toNat ∧
    (fieldNN op).toNat = (extract op 0x00FF 0).toNat ∧ (fieldNNN op).toNat = (extract op 0x0FFF 0).toNat

/-- Words written out from R95 and the table T1 of 95_test_vectors.md (log 2, log 3), one or two of each format. -/
def Obligations.SampleWordsDecode : Prop :=
  decode 0x00E0 = .ok .clearScreen ∧ decode 0x00EE = .ok .ret ∧ decode 0x1ABC = .ok (.jump 0xABC) ∧
  decode 0x3A7F = .ok (.skipEqImm 10 0x7F) ∧ decode 0x8AB6 = .ok (.shr 10 11) ∧ decode 0x8ABE = .ok (.shl 10 11) ∧
  decode 0xD125 = .ok (.draw 1 2 5) ∧ decode 0xE19E = .ok (.skipIfKey 1) ∧ decode 0xFE65 = .ok (.loadRegs 14) ∧
  decode 0x5001 = .error (.unknownInstruction 0x5001) ∧ decode 0xFFFF = .error (.unknownInstruction 0xFFFF)

/-! ### The step -/

/-- R200: a step whose move is an advance (one the host has scripted, or a free one) runs the instruction that the two bytes
at `pc` decode to, on the state after the ticks with `pc` moved past the opcode. (The script is the model's: log 11, 14.) -/
def Obligations.StepRunsDecodedInstruction : Prop :=
  ∀ (s : State) (i : Instr), s.pc.toNat < 4095 →
    decode (wordOfBytes (byteAt s s.pc.toNat) (byteAt s (s.pc.toNat + 1))) = .ok i →
    (∀ n rest, s.host = .advance n :: rest → step s = exec i (setPc (s.pc + 2) (ticks n { s with host := rest }))) ∧
    (s.host = [] → step s = exec i (setPc (s.pc + 2) (ticks (Config.freeTicks s.draws) (countDraw s))))

/-- A step performs the first pending move of the host and takes it off the list; with none pending it is an advance with a
free number of ticks. (Model's choice: log 14.) -/
def Obligations.StepPerformsFirstPendingMove : Prop :=
  ∀ s : State,
    (∀ m rest, s.host = m :: rest → step s = perform m { s with host := rest }) ∧
    (s.host = [] → step s = advance (Config.freeTicks s.draws) (countDraw s))

/-- `withFetchWord` makes the very next step run the instruction of the word: it stands where the step fetches (at `pc`, or at
the program origin where no fetch succeeds at `pc`), every other byte of memory, every register but that `pc`, and every
timer, key and pixel is as before. (Model's convention: log 33.) -/
def Obligations.PlacedWordRunsNext : Prop :=
  ∀ (s : State) (w : Nat) (i : Instr), Memory.wf s.mem = true → decodeTableWord 16 w = some i →
    ∃ (n : Nat) (u : State), step (s.withFetchWord 16 w) = exec i (setPc (u.pc + 2) (ticks n u)) ∧
      u.pc = fetchPlace s ∧ (s.pc.toNat < 4095 → u.pc = s.pc) ∧ (4095 ≤ s.pc.toNat → u.pc = 0x200) ∧
      wordOfBytes (byteAt u (fetchPlace s).toNat) (byteAt u ((fetchPlace s).toNat + 1)) = BitVec.ofNat 16 w ∧
      sameMemOutside (fetchPlace s).toNat 2 s u ∧
      sameV s u ∧ u.i = s.i ∧ sameStack s u ∧ sameTimers s u ∧ u.kl = s.kl ∧ sameDisplay s u ∧
      u.key = s.key ∧ u.plen = s.plen ∧ u.rndIn = s.rndIn

/-- R203: an unknown word ends the advance with its opcode; the only effects are the ticks and `pc` past the word; the word
0x0000 is one of them. (Which words are unknown: log 2, log 3.) -/
def Obligations.UnknownWordEndsAdvance : Prop :=
  ∀ (s : State) (n : Nat) (op : Word), s.pc.toNat < 4095 →
    wordOfBytes (byteAt s s.pc.toNat) (byteAt s (s.pc.toNat + 1)) = op →
    (∀ i : Instr, decode op ≠ .ok i) →
    advance n s = .fault (.unknownInstruction op (setPc (s.pc + 2) (ticks n s))) ∧
    (∀ i : Instr, decode 0x0000 ≠ .ok i)

/-- A fetch at 0x0FFF or above ends the advance; only the ticks have happened (`pc` unchanged: decision D22, log 25), and every
further advance fails in the same way. (The address carried: decision D25, log 28.) -/
def Obligations.FetchErrorIsDeadEnd : Prop :=
  ∀ (s : State) (n m : Nat), 4095 ≤ s.pc.toNat →
    ∃ r q, advance n s = .fault r ∧ r = .memoryOutOfBounds (max s.pc.toNat 4096) (ticks n s) ∧
      advance m (resume r) = .fault q ∧ q = .memoryOutOfBounds (max s.pc.toNat 4096) (ticks m (ticks n s))

/-- Which instruction raises which error, and when; `pc` is then still past the instruction, and no instruction is refused.
(R202, R204 to R206, R220.) Choices it rests on: that no instruction is refused, on the model's `KEY_OOR = free` (log 13; the
spec leaves the parameter open with default `refuse`, D16); that a failing `draw` carries 4096 or more, on `DRAW_N0 = nop`
(decision D20, log 23); the address carried, on decision D25 (log 28); that `SP` counts frames, on decision D29 (log 32). -/
def Obligations.ErrorsAreRaisedOnlyWhereNamed : Prop :=
  ∀ (i : Instr) (s : State),
    (∀ q, exec i s ≠ .refused q) ∧
    (∀ r, exec i s = .fault r → (Fault.left r).pc = s.pc ∧
      ((∃ a t, r = .memoryOutOfBounds a t ∧ 4096 ≤ a ∧
          ((∃ x y n, i = .draw x y n) ∨ (∃ x, i = .loadRegs x) ∨ (∃ x, i = .storeBcd x) ∨ (∃ x, i = .storeRegs x))) ∨
        (r = .stackEmpty s ∧ i = .ret ∧ s.sp.val = 0) ∨
        (r = .stackOverflow s ∧ (∃ nnn, i = .call nnn) ∧ s.sp.val = 16)))

/-! ### Control transfer -/

/-- `return` pops the last frame into `pc` (R120); with no frame it raises StackEmpty and writes nothing (R204). That `SP` counts
the frames and the last one is `STACK[SP - 1]` is decision D29 (log 32). -/
def Obligations.ReturnPopsIntoPc : Prop :=
  ∀ s : State,
    (∀ k : Fin 16, s.sp.val = k.val + 1 →
      ∃ t, exec .ret s = .next t ∧ t.pc = s.stack[k] ∧ t.sp.val = k.val ∧ t.stack = s.stack ∧ onlyPcAndStack s t) ∧
    (s.sp.val = 0 → exec .ret s = .fault (.stackEmpty s))

/-- R121: `jump` sets `pc` and nothing else. -/
def Obligations.JumpSetsPc : Prop :=
  ∀ (s : State) (nnn : Word), ∃ t, exec (.jump nnn) s = .next t ∧ t.pc = nnn ∧ onlyPc s t

/-- `call` pushes the address after it and jumps (R122); with sixteen frames it raises StackOverflow and pushes nothing (R205).
That `SP` counts the frames and a push writes `STACK[SP]` is decision D29 (log 32). -/
def Obligations.CallPushesReturnAddress : Prop :=
  ∀ (s : State) (nnn : Word),
    (∀ k : Fin 16, s.sp.val = k.val →
      ∃ t, exec (.call nnn) s = .next t ∧ t.pc = nnn ∧ t.sp.val = k.val + 1 ∧ t.stack[k] = s.pc ∧
        (∀ j : Fin 16, j ≠ k → t.stack[j] = s.stack[j]) ∧ onlyPcAndStack s t) ∧
    (s.sp.val = 16 → exec (.call nnn) s = .fault (.stackOverflow s))

/-- The round trip of 40_control_transfer.md R120: `call` and then `return` come back to the instruction after the call, with
the frames below as they were. (The layout of the stack: decision D29, log 32.) -/
def Obligations.ReturnUndoesCall : Prop :=
  ∀ (s : State) (nnn : Word), s.sp.val < 16 →
    ∃ t u, exec (.call nnn) s = .next t ∧ exec .ret t = .next u ∧ u.pc = s.pc ∧ u.sp = s.sp ∧
      (∀ j : Fin 16, j.val < s.sp.val → u.stack[j] = s.stack[j]) ∧ onlyPcAndStack s u

/-- `jump-offset` adds `V[0]` to its address in 16 bits (not reduced to 12: decision D23, log 26). -/
def Obligations.JumpOffsetAddsFirstRegister : Prop :=
  ∀ (s : State) (nnn : Word), nnn.toNat < 4096 →
    ∃ t, exec (.jumpOffset nnn) s = .next t ∧ t.pc.toNat = nnn.toNat + (readV s 0).toNat ∧ onlyPc s t

/-- R124 to R127: a skip steps over one word exactly when its condition holds, and changes nothing else. -/
def Obligations.SkipsComparePlainBytes : Prop :=
  ∀ (s : State) (x y : Reg) (nn : Byte),
    (∃ t, exec (.skipEqImm x nn) s = .next t ∧ onlyPc s t ∧
      ((readV s x).toNat = nn.toNat → t.pc = s.pc + 2) ∧ ((readV s x).toNat ≠ nn.toNat → t.pc = s.pc)) ∧
    (∃ t, exec (.skipNeImm x nn) s = .next t ∧ onlyPc s t ∧
      ((readV s x).toNat ≠ nn.toNat → t.pc = s.pc + 2) ∧ ((readV s x).toNat = nn.toNat → t.pc = s.pc)) ∧
    (∃ t, exec (.skipEqReg x y) s = .next t ∧ onlyPc s t ∧
      ((readV s x).toNat = (readV s y).toNat → t.pc = s.pc + 2) ∧
      ((readV s x).toNat ≠ (readV s y).toNat → t.pc = s.pc)) ∧
    (∃ t, exec (.skipNeReg x y) s = .next t ∧ onlyPc s t ∧
      ((readV s x).toNat ≠ (readV s y).toNat → t.pc = s.pc + 2) ∧
      ((readV s x).toNat = (readV s y).toNat → t.pc = s.pc))

/-! ### Registers and flags -/

/-- R141, R143: `V[x]` becomes the immediate byte, or a copy of `V[y]`; every other register is unchanged, and no flag is
written. -/
def Obligations.LoadImmAndSetWriteOneRegister : Prop :=
  ∀ (s : State) (x y : Reg) (nn : Byte),
    (∃ t, exec (.loadImm x nn) s = .next t ∧ onlyV s t ∧ ∀ r, readV t r = if r = x then nn else readV s r) ∧
    (∃ t, exec (.set x y) s = .next t ∧ onlyV s t ∧ ∀ r, readV t r = if r = x then readV s y else readV s r)

/-- R142: the sum modulo 256, and no flag: every register but `V[x]` is unchanged. -/
def Obligations.AddImmWrapsWithoutFlag : Prop :=
  ∀ (s : State) (x : Reg) (nn : Byte), ∃ t, exec (.addImm x nn) s = .next t ∧ onlyV s t ∧
    (readV t x).toNat = ((readV s x).toNat + nn.toNat) % 256 ∧ ∀ r, r ≠ x → readV t r = readV s r

/-- R144 to R146: the bitwise result in `V[x]`, the flag register 0; with `x = F` the flag remains (log 4, log 16). -/
def Obligations.LogicOperationsResetFlag : Prop :=
  ∀ (s : State) (x y : Reg),
    (∃ t, exec (.or x y) s = .next t ∧ onlyV s t ∧ readV t vF = 0 ∧
      (∀ r, r ≠ vF → r ≠ x → readV t r = readV s r) ∧
      (x ≠ vF → ∀ j, (readV t x).getLsbD j = ((readV s x).getLsbD j || (readV s y).getLsbD j))) ∧
    (∃ t, exec (.and x y) s = .next t ∧ onlyV s t ∧ readV t vF = 0 ∧
      (∀ r, r ≠ vF → r ≠ x → readV t r = readV s r) ∧
      (x ≠ vF → ∀ j, (readV t x).getLsbD j = ((readV s x).getLsbD j && (readV s y).getLsbD j))) ∧
    (∃ t, exec (.xor x y) s = .next t ∧ onlyV s t ∧ readV t vF = 0 ∧
      (∀ r, r ≠ vF → r ≠ x → readV t r = readV s r) ∧
      (x ≠ vF → ∀ j, (readV t x).getLsbD j = ((readV s x).getLsbD j ^^ (readV s y).getLsbD j)))

/-- R147: the sum modulo 256 in `V[x]`, the carry in the flag register; with `x = F` the flag remains (log 4, log 16). -/
def Obligations.AddSetsCarry : Prop :=
  ∀ (s : State) (x y : Reg), ∃ t, exec (.add x y) s = .next t ∧ onlyV s t ∧
    (255 < (readV s x).toNat + (readV s y).toNat → readV t vF = 1) ∧
    ((readV s x).toNat + (readV s y).toNat ≤ 255 → readV t vF = 0) ∧
    (x ≠ vF → (readV t x).toNat = ((readV s x).toNat + (readV s y).toNat) % 256) ∧
    (∀ r, r ≠ vF → r ≠ x → readV t r = readV s r)

/-- R148, R149: the difference modulo 256 in `V[x]`; the flag is 1 exactly when the minuend is strictly greater (0 at equality:
decision D13, log 17; with `x = F` the flag remains: log 4, log 16). -/
def Obligations.SubtractionsFlagStrictlyGreater : Prop :=
  ∀ (s : State) (x y : Reg),
    (∃ t, exec (.sub x y) s = .next t ∧ onlyV s t ∧
      ((readV s y).toNat < (readV s x).toNat → readV t vF = 1) ∧
      ((readV s x).toNat ≤ (readV s y).toNat → readV t vF = 0) ∧
      (x ≠ vF → (readV t x).toNat = ((readV s x).toNat + 256 - (readV s y).toNat) % 256) ∧
      (∀ r, r ≠ vF → r ≠ x → readV t r = readV s r)) ∧
    (∃ t, exec (.subn x y) s = .next t ∧ onlyV s t ∧
      ((readV s x).toNat < (readV s y).toNat → readV t vF = 1) ∧
      ((readV s y).toNat ≤ (readV s x).toNat → readV t vF = 0) ∧
      (x ≠ vF → (readV t x).toNat = ((readV s y).toNat + 256 - (readV s x).toNat) % 256) ∧
      (∀ r, r ≠ vF → r ≠ x → readV t r = readV s r))

/-- R150, R151: `V[y]` shifted by one bit into `V[x]`, the bit shifted out in the flag register; with `x = F` the flag remains
(log 4, log 16). -/
def Obligations.ShiftsReadSecondRegister : Prop :=
  ∀ (s : State) (x y : Reg),
    (∃ t, exec (.shr x y) s = .next t ∧ onlyV s t ∧ (readV t vF).toNat = (readV s y).toNat % 2 ∧
      (x ≠ vF → (readV t x).toNat = (readV s y).toNat / 2) ∧ (∀ r, r ≠ vF → r ≠ x → readV t r = readV s r)) ∧
    (∃ t, exec (.shl x y) s = .next t ∧ onlyV s t ∧ (readV t vF).toNat = (readV s y).toNat / 128 ∧
      (x ≠ vF → (readV t x).toNat = (readV s y).toNat * 2 % 256) ∧ (∀ r, r ≠ vF → r ≠ x → readV t r = readV s r))

/-- R152: `V[x]` becomes a drawn byte masked with `nn`: the byte lined up on the input if there is one, which is consumed, else a
free value (decision D3, log 12). Where `nn` has a 0 bit the result has one, whatever was drawn. -/
def Obligations.RandomMasksDrawnByte : Prop :=
  ∀ (s : State) (x : Reg) (nn : Byte), ∃ (t : State) (rnd : Byte), exec (.random x nn) s = .next t ∧
    (∀ r, readV t r = if r = x then rnd &&& nn else readV s r) ∧
    (∀ j, nn.getLsbD j = false → (readV t x).getLsbD j = false) ∧
    (∀ b rest, s.rndIn = b :: rest → rnd = b ∧ t.rndIn = rest ∧ t.draws = s.draws) ∧
    (s.rndIn = [] → rnd = Config.freeRandom s.draws ∧ t.rndIn = [] ∧ t.draws = s.draws + 1) ∧
    t.i = s.i ∧ t.pc = s.pc ∧ sameStack s t ∧ sameTimers s t ∧ t.kl = s.kl ∧ sameMem s t ∧ sameDisplay s t ∧
    sameHostSide s t

/-! ### Index register and memory -/

/-- R160. -/
def Obligations.SetIndexWritesAddress : Prop :=
  ∀ (s : State) (nnn : Word), ∃ t, exec (.setIndex nnn) s = .next t ∧ t.i = nnn ∧ onlyI s t

/-- R161: `I` plus `V[x]` modulo 65536; no flag. -/
def Obligations.AddIndexWrapsAtSixteenBits : Prop :=
  ∀ (s : State) (x : Reg), ∃ t, exec (.addIndex x) s = .next t ∧
    t.i.toNat = (s.i.toNat + (readV s x).toNat) % 65536 ∧ onlyI s t

/-- `load-font-addr`: five times `V[x]`, for every value of `V[x]` (no mask: decision D17, log 20). -/
def Obligations.LoadFontAddrScalesByFive : Prop :=
  ∀ (s : State) (x : Reg), ∃ t, exec (.loadFontAddr x) s = .next t ∧
    t.i.toNat = Config.fontBase + (readV s x).toNat * 5 ∧ onlyI s t

/-- `store-bcd` where its three bytes exist: the decimal digits of `V[x]`, hundreds first; `I` and every other byte stay. -/
def Obligations.StoreBcdWritesThreeDigits : Prop :=
  ∀ (s : State) (x : Reg), Memory.wf s.mem = true → s.i.toNat + 3 ≤ 4096 →
    ∃ t, exec (.storeBcd x) s = .next t ∧ onlyMemAndI s t ∧ t.i = s.i ∧
      (byteAt t (effectiveAddress s 0)).toNat = (readV s x).toNat / 100 ∧
      (byteAt t (effectiveAddress s 1)).toNat = (readV s x).toNat / 10 % 10 ∧
      (byteAt t (effectiveAddress s 2)).toNat = (readV s x).toNat % 10 ∧
      sameMemOutside (effectiveAddress s 0) 3 s t

/-- `store-regs` where its bytes exist: `V[k]` at `I + k` for `k` up to `x`; then `I` is past them; every other byte stays. -/
def Obligations.StoreRegsWritesBlock : Prop :=
  ∀ (s : State) (x : Reg), Memory.wf s.mem = true → s.i.toNat + x.val + 1 ≤ 4096 →
    ∃ t, exec (.storeRegs x) s = .next t ∧ onlyMemAndI s t ∧ t.i.toNat = s.i.toNat + x.val + 1 ∧
      (∀ k : Reg, k ≤ x → byteAt t (effectiveAddress s k.val) = readV s k) ∧
      sameMemOutside (effectiveAddress s 0) (x.val + 1) s t

/-- `load-regs` where its bytes exist: the byte at `I + k` in `V[k]` for `k` up to `x`; then `I` is past them. -/
def Obligations.LoadRegsReadsBlock : Prop :=
  ∀ (s : State) (x : Reg), s.i.toNat + x.val + 1 ≤ 4096 →
    ∃ t, exec (.loadRegs x) s = .next t ∧ onlyVAndI s t ∧ t.i.toNat = s.i.toNat + x.val + 1 ∧
      (∀ k : Reg, k ≤ x → readV t k = byteAt s (effectiveAddress s k.val)) ∧
      (∀ k : Reg, x < k → readV t k = readV s k)

/-- `store-bcd` and `store-regs` that reach past the memory: MemoryOutOfBounds at the first byte that does not exist; the bytes
before it are written, `I` is not updated, nothing else changes (decision D19, log 22; the address carried: log 28). -/
def Obligations.FailingStoreKeepsEarlierBytes : Prop :=
  ∀ (s : State) (x : Reg), Memory.wf s.mem = true →
    (4096 < s.i.toNat + 3 →
      ∃ t, exec (.storeBcd x) s = .fault (.memoryOutOfBounds (max s.i.toNat 4096) t) ∧ onlyMemAndI s t ∧ t.i = s.i ∧
        (effectiveAddress s 0 < 4096 → (byteAt t (effectiveAddress s 0)).toNat = (readV s x).toNat / 100) ∧
        (effectiveAddress s 1 < 4096 → (byteAt t (effectiveAddress s 1)).toNat = (readV s x).toNat / 10 % 10) ∧
        sameMemOutside (effectiveAddress s 0) (4096 - s.i.toNat) s t) ∧
    (4096 < s.i.toNat + x.val + 1 →
      ∃ t, exec (.storeRegs x) s = .fault (.memoryOutOfBounds (max s.i.toNat 4096) t) ∧ onlyMemAndI s t ∧ t.i = s.i ∧
        (∀ k : Reg, k ≤ x → effectiveAddress s k.val < 4096 → byteAt t (effectiveAddress s k.val) = readV s k) ∧
        sameMemOutside (effectiveAddress s 0) (4096 - s.i.toNat) s t)

/-- `load-regs` that reaches past the memory: MemoryOutOfBounds at the first byte that does not exist; the registers before it
are loaded, the others and `I` are as before (decision D19, log 22; the address carried: log 28). -/
def Obligations.FailingLoadKeepsEarlierRegisters : Prop :=
  ∀ (s : State) (x : Reg), 4096 < s.i.toNat + x.val + 1 →
    ∃ t, exec (.loadRegs x) s = .fault (.memoryOutOfBounds (max s.i.toNat 4096) t) ∧ onlyVAndI s t ∧ t.i = s.i ∧
      (∀ k : Reg, k ≤ x → effectiveAddress s k.val < 4096 → readV t k = byteAt s (effectiveAddress s k.val)) ∧
      (∀ k : Reg, (x < k ∨ 4096 ≤ effectiveAddress s k.val) → readV t k = readV s k)

/-- R68: a byte written is read back, and the write changes no other byte and nothing else; at and past 4096 reads and writes
fail with MemoryOutOfBounds and leave the state as it is. (Nothing is said of the address that the error carries.) -/
def Obligations.ReadAfterWrite : Prop :=
  ∀ (s : State) (a : Nat) (b : Byte), Memory.wf s.mem = true →
    (a < 4096 → ∃ t, memWrite a b s = .next t ∧ memRead a t = .ok b ∧
      (∀ p, p ≠ a → memRead p s = .ok (byteAt s p) → memRead p t = .ok (byteAt s p)) ∧ sameMemOutside a 1 s t ∧
      onlyMemAndI s t ∧ t.i = s.i) ∧
    (4096 ≤ a → (∃ q, memWrite a b s = .fault (.memoryOutOfBounds q s)) ∧
      ∃ q, memRead a s = .error (.memoryOutOfBounds q s))

/-- The byte that `store-regs` has just written is what the next fetch of that address sees: self-modifying code needs nothing
in between (20_memory.md R75, which the spec derives). -/
def Obligations.FetchSeesStoredBytes : Prop :=
  ∀ (s : State) (x k l : Reg), Memory.wf s.mem = true → s.i.toNat + x.val + 1 ≤ 4096 → l ≤ x → l.val = k.val + 1 →
    ∃ t, exec (.storeRegs x) s = .next t ∧
      ∀ n, fetch (ticks n (setPc (BitVec.ofNat 16 (effectiveAddress s k.val)) t)) =
        .ok (wordOfBytes (readV s k) (readV s l))

/-! ### Display -/

/-- R180. -/
def Obligations.ClearScreenBlanksDisplay : Prop :=
  ∀ s : State, ∃ t, exec .clearScreen s = .next t ∧ (∀ r c, r < 32 → c < 64 → testPixel t.disp r c = false) ∧
    t.dchg = true ∧ sameV s t ∧ onlyVAndDisplay s t

/-- `draw` where its bytes exist, for every height: exactly the pixels of the grid under a 1 bit of the sprite are toggled (start
coordinates modulo 64 and 32, no wrap); the flag register tells whether one of them was on; `DCHG` is raised exactly when there
is one. (Bit order: log 6; all decisions of R181: log 22, 23, 24; flag index and order: log 4, 16.) -/
def Obligations.DrawTogglesSpritePixels : Prop :=
  ∀ (s : State) (x y : Reg) (n : Nat), (n = 0 ∨ s.i.toNat + n ≤ 4096) →
    ∃ (t : State) (on : Nat → Nat → Bool),
      on = spritePixel ((readV s y).toNat % 32) ((readV s x).toNat % 64) (bytesFrom s (effectiveAddress s 0) n) ∧
      exec (.draw x y n) s = .next t ∧ onlyVAndDisplay s t ∧
      (∀ r c, r < 32 → c < 64 → testPixel t.disp r c = (testPixel s.disp r c ^^ on r c)) ∧
      (∀ r, r ≠ vF → readV t r = readV s r) ∧
      ((∃ r c, r < 32 ∧ c < 64 ∧ on r c = true ∧ testPixel s.disp r c = true) → readV t vF = 1) ∧
      ((∀ r c, r < 32 → c < 64 → on r c = true → testPixel s.disp r c = false) → readV t vF = 0) ∧
      (t.dchg = true ↔ s.dchg = true ∨ ∃ r c, r < 32 ∧ c < 64 ∧ on r c = true)

/-- A `draw` one of whose bytes does not exist, were it of a row clipped off the bottom, fails and changes nothing at all
(decision D19, log 22; the address carried: log 28). -/
def Obligations.FailingDrawChangesNothing : Prop :=
  ∀ (s : State) (x y : Reg) (n : Nat), 0 < n → 4096 < s.i.toNat + n →
    exec (.draw x y n) s = .fault (.memoryOutOfBounds (max s.i.toNat 4096) s)

/-- R183 (which the spec derives from R181): the same sprite drawn twice at the same place restores the grid; the second flag
tells whether the first draw turned a pixel on. The coordinates are not in the flag register (its index: log 4). With
`n = 0` both draws complete and change no pixel: decision D20 (log 23). -/
def Obligations.DoubleDrawRestoresDisplay : Prop :=
  ∀ (s : State) (x y : Reg) (n : Nat), (n = 0 ∨ s.i.toNat + n ≤ 4096) → x ≠ vF → y ≠ vF →
    ∃ t u, exec (.draw x y n) s = .next t ∧ exec (.draw x y n) t = .next u ∧ u.disp = s.disp ∧
      ((∃ r c, r < 32 ∧ c < 64 ∧ testPixel s.disp r c = false ∧ testPixel t.disp r c = true) → readV u vF = 1) ∧
      ((∀ r c, r < 32 → c < 64 → testPixel t.disp r c = true → testPixel s.disp r c = true) → readV u vF = 0)

/-! ### Keys and timers -/

/-- R190, R191: a key skip tests the key its register names and changes `pc` only; where the value names no key, it skips or not
by a free value and changes only `pc` and the count of free values, and the two skips draw the same value (log 13). -/
def Obligations.KeySkipsTestNamedKey : Prop :=
  ∀ (s : State) (x : Reg),
    (∀ k : Key, (readV s x).toNat = k.val →
      (∃ t, exec (.skipIfKey x) s = .next t ∧ onlyPc s t ∧
        (s.key[k] = true → t.pc = s.pc + 2) ∧ (s.key[k] = false → t.pc = s.pc)) ∧
      (∃ t, exec (.skipIfNotKey x) s = .next t ∧ onlyPc s t ∧
        (s.key[k] = false → t.pc = s.pc + 2) ∧ (s.key[k] = true → t.pc = s.pc))) ∧
    (15 < (readV s x).toNat →
      ∃ (t u : State) (down : Bool), exec (.skipIfKey x) s = .next t ∧ exec (.skipIfNotKey x) s = .next u ∧
        down = Config.freeKeyState (readV s x) s.key s.draws ∧
        onlyPc (countDraw s) t ∧ onlyPc (countDraw s) u ∧
        t.pc = (if down then s.pc + 2 else s.pc) ∧ u.pc = (if down then s.pc else s.pc + 2))

/-- R192: the three polls of `wait-key`: no key down, it is issued again; a key down, the lowest is latched and it is issued
again; the latched key down, its index goes to `V[x]`, the latch is cleared and it completes. A latched key that is up keeps
the latch (decision D15, log 19). -/
def Obligations.WaitKeyLatchesThenStores : Prop :=
  ∀ (s : State) (x : Reg), ∃ t, exec (.waitKey x) s = .next t ∧ onlyVPcLatch s t ∧
    (s.kl = none → (∀ k : Key, s.key[k] = false) → t.pc = s.pc - 2 ∧ t.kl = none ∧ sameV s t) ∧
    (∀ k : Key, s.kl = none → s.key[k] = true → (∀ j : Key, j < k → s.key[j] = false) →
      t.pc = s.pc - 2 ∧ t.kl = some k ∧ sameV s t) ∧
    (∀ k : Key, s.kl = some k → s.key[k] = true →
      t.pc = s.pc ∧ t.kl = none ∧ (readV t x).toNat = k.val ∧ ∀ r, r ≠ x → readV t r = readV s r) ∧
    (∀ k : Key, s.kl = some k → s.key[k] = false → t.pc = s.pc - 2 ∧ t.kl = some k ∧ sameV s t)

/-- R193, R194: `load-delay` copies the delay timer to `V[x]`, `set-delay` copies `V[x]` to the delay timer; nothing else
changes. -/
def Obligations.DelayTimerIsReadAndWritten : Prop :=
  ∀ (s : State) (x : Reg),
    (∃ t, exec (.loadDelay x) s = .next t ∧ onlyV s t ∧ ∀ r, readV t r = if r = x then s.dt else readV s r) ∧
    (∃ t, exec (.setDelay x) s = .next t ∧ t.dt = readV s x ∧ t.st = s.st ∧ onlyTimers s t)

/-- R195: `set-sound` writes the sound timer; the tone is audible until one tick less than the value has passed, never for a
value of 0 or 1. -/
def Obligations.SetSoundStartsTone : Prop :=
  ∀ (s : State) (x : Reg), ∃ t, exec (.setSound x) s = .next t ∧ t.st = readV s x ∧ t.dt = s.dt ∧ onlyTimers s t ∧
    ∀ n : Nat, (soundActive (ticks n t) = true ↔ n + 1 < (readV s x).toNat)

/-- R215 (the spec derives it from R214): the timers after any number of ticks, each with its own floor; a sound timer of 0 stays
0 (decision D14, log 18); a tick touches nothing else. -/
def Obligations.TicksStopAtTheirFloors : Prop :=
  ∀ (s : State) (n : Nat),
    (ticks n s).dt.toNat = s.dt.toNat - n ∧ (1 ≤ s.st.toNat → (ticks n s).st.toNat = max (s.st.toNat - n) 1) ∧
    (s.st.toNat = 0 → (ticks n s).st.toNat = 0) ∧ sameV s (ticks n s) ∧ (ticks n s).i = s.i ∧ (ticks n s).pc = s.pc ∧
    sameStack s (ticks n s) ∧ (ticks n s).kl = s.kl ∧ sameMem s (ticks n s) ∧ sameDisplay s (ticks n s) ∧
    sameRest s (ticks n s)

/-- R252 (derived by the spec): the delay timer reads back what was written, less the ticks in between. -/
def Obligations.DelayReadsBackLessTicks : Prop :=
  ∀ (s : State) (x y : Reg) (n : Nat), ∃ t u, exec (.setDelay x) s = .next t ∧
    exec (.loadDelay y) (ticks n t) = .next u ∧ (readV u y).toNat = (readV s x).toNat - n

/-! ### Whole-machine rules -/

/-- R24: `pc` after an instruction that is no jump, call, return, skip or wait is where the fetch left it, also where the
instruction fails. -/
def Obligations.OnlyControlInstructionsMovePc : Prop :=
  ∀ (i : Instr) (s t : State), stateAfter (exec i s) = some t →
    i ≠ .ret → (∀ a, i ≠ .jump a ∧ i ≠ .call a ∧ i ≠ .jumpOffset a) →
    (∀ x nn, i ≠ .skipEqImm x nn ∧ i ≠ .skipNeImm x nn) → (∀ x y, i ≠ .skipEqReg x y ∧ i ≠ .skipNeReg x y) →
    (∀ x, i ≠ .skipIfKey x ∧ i ≠ .skipIfNotKey x ∧ i ≠ .waitKey x) → t.pc = s.pc

/-- Which instruction writes which state, failing ones included (`pc` has its own statement): memory only the two stores
(20_memory.md R72); the grid and its flag only `clear-screen` and `draw` (R37, R38); the stack only `call` and `return` (R29);
the timers only `set-delay` and `set-sound` (R27, R28); `I` only the three index instructions and the two block moves (R22);
the latch only `wait-key` (R31); the general registers only the instructions with a register result and `draw` (R20, R21; the
flag's index: log 4); the inputs only `random` and the key skips (log 12, 13); the keys, `PLEN` and the host's moves none
(R39, R41, R246). -/
def Obligations.StateIsWrittenOnlyByItsInstructions : Prop :=
  ∀ (i : Instr) (s t : State), stateAfter (exec i s) = some t →
    (sameMem s t ∨ (∃ x, i = .storeBcd x) ∨ ∃ x, i = .storeRegs x) ∧
    (sameDisplay s t ∨ i = .clearScreen ∨ ∃ x y n, i = .draw x y n) ∧
    (sameStack s t ∨ i = .ret ∨ ∃ a, i = .call a) ∧
    (t.dt = s.dt ∨ ∃ x, i = .setDelay x) ∧ (t.st = s.st ∨ ∃ x, i = .setSound x) ∧
    (t.i = s.i ∨ (∃ a, i = .setIndex a) ∨
      ∃ x, i = .addIndex x ∨ i = .loadFontAddr x ∨ i = .storeRegs x ∨ i = .loadRegs x) ∧
    (t.kl = s.kl ∨ ∃ x, i = .waitKey x) ∧
    (sameV s t ∨ (∃ x nn, i = .loadImm x nn ∨ i = .addImm x nn ∨ i = .random x nn) ∨
      (∃ x y, i = .set x y ∨ i = .or x y ∨ i = .and x y ∨ i = .xor x y ∨ i = .add x y ∨ i = .sub x y ∨ i = .shr x y ∨
        i = .subn x y ∨ i = .shl x y) ∨
      (∃ x y n, i = .draw x y n) ∨ ∃ x, i = .loadDelay x ∨ i = .waitKey x ∨ i = .loadRegs x) ∧
    (sameSupply s t ∨ (∃ x nn, i = .random x nn) ∨ ∃ x, i = .skipIfKey x ∨ i = .skipIfNotKey x) ∧
    sameHostSide s t

/-- R21's list: the flag register changes only by an instruction of the list, or by one that names it as its destination. (Its
index is general knowledge: log 4.) -/
def Obligations.FlagIsWrittenOnlyByListedInstructions : Prop :=
  ∀ (i : Instr) (s t : State), stateAfter (exec i s) = some t → readV t vF ≠ readV s vF →
    (∃ x y, i = .or x y ∨ i = .and x y ∨ i = .xor x y ∨ i = .add x y ∨ i = .sub x y ∨ i = .subn x y ∨ i = .shr x y ∨
      i = .shl x y) ∨ (∃ x y n, i = .draw x y n) ∨
    (∃ nn, i = .loadImm vF nn ∨ i = .addImm vF nn ∨ i = .random vF nn) ∨ (∃ y, i = .set vF y) ∨ i = .loadDelay vF ∨
    i = .waitKey vF ∨ i = .loadRegs vF

/-- R31: the key latch is read and written only by `wait-key` (no other instruction does anything different for it, or to it),
and the CPU reset clears it. -/
def Obligations.LatchBelongsToWaitKey : Prop :=
  (∀ (i : Instr) (s : State) (k : Option Key), (∀ x, i ≠ .waitKey x) →
    exec i (setKl k s) = mapState (setKl k) (exec i s)) ∧
  (∀ s : State, (cpuReset s).kl = none)

/-- R47: what a program can observe of an advance does not depend on `ST`, `DCHG` and `PLEN`: blanking them before makes no
difference to anything else after, in the next state and in the state an error leaves. -/
def Obligations.HiddenStateDoesNotInterfere : Prop :=
  ∀ (n : Nat) (s : State), mapState hide (advance n (hide s)) = mapState hide (advance n s)

/-- The invariant holds at reset. -/
def Obligations.ResetMeetsInvariant : Prop := Inv State.reset

/-- Every step that answers a next state, whatever move of the host it performs, keeps the invariant: memory canonical and inside
the address space, `PLEN` at most 3584, `pc` at most 0x10FE and the frames in use at most 0x1000 (R26, R41; which entries
are in use: decision D29, log 32). -/
def Obligations.StepKeepsInvariant : Prop :=
  ∀ s t : State, Inv s → step s = .next t → Inv t

/-- The state that an error leaves meets the invariant too, so that a caller who advances again (R208) goes on from a good
state. -/
def Obligations.ErrorsLeaveInvariant : Prop :=
  ∀ (s : State) (r : Fault), Inv s → step s = .fault r → Inv (resume r)

/-! ### The host's operations -/

/-- The state after construct, in what the source states or implies of it: `pc` at the program origin, all keys up, the program
region zero, the font in its place (which bytes: log 5); that no frame is in use the spec derives (R44; log 9, DEDUCED). -/
def Obligations.ConstructState : Prop :=
  State.reset.pc = 0x200 ∧ State.reset.sp = 0 ∧ (∀ k : Key, State.reset.key[k] = false) ∧
  (∀ a, 0x200 ≤ a → a < 4096 → byteAt State.reset a = 0) ∧
  (∀ g j : Nat, (hg : g < 16) → (hj : j < 5) → byteAt State.reset (Config.fontBase + 5 * g + j) = params.font[g][j])

/-- Full reset: CPU (the stack entries included), display and keys reset, the memory from 0x200 zero, the memory below it, the
font included, unchanged, `PLEN` 0 (decisions D7, D8, D9, D28: log 7, 8, 9, 31). -/
def Obligations.FullResetKeepsLowMemory : Prop :=
  ∀ s : State, Memory.wf s.mem = true → ∃ t, perform .fullReset s = .next t ∧ afterReset t ∧
    (∀ a, 0x200 ≤ a → a < 4096 → byteAt t a = 0) ∧ (∀ a, a < 0x200 → byteAt t a = byteAt s a) ∧ t.plen = 0 ∧
    t.host = s.host ∧ sameSupply s t

/-- Light reload in any state: the bytes below 0x200 + `PLEN`, those the program itself changed included, and `PLEN` are
unchanged, every byte from there on is zero, and CPU (the stack entries included), display and keys are reset (R243). After a
load the image is therefore in place and everything beyond it zero. (Decisions D7, D8, D27, D28: log 7, 8, 9, 30, 31.) -/
def Obligations.LightReloadKeepsLoadedImage : Prop :=
  ∀ s : State, Memory.wf s.mem = true →
    (s.plen ≤ 3584 → ∃ t, perform .lightReload s = .next t ∧ afterReset t ∧
      (∀ a, a < 0x200 + s.plen → byteAt t a = byteAt s a) ∧ (∀ a, 0x200 + s.plen ≤ a → a < 4096 → byteAt t a = 0) ∧
      t.plen = s.plen ∧ t.host = s.host ∧ sameSupply s t) ∧
    (∀ image : List Byte, image.length ≤ 3584 →
      ∃ t u, perform (.load image) s = .next t ∧ perform .lightReload t = .next u ∧ afterReset u ∧
        (∀ j, (h : j < image.length) → byteAt u (0x200 + j) = image[j]) ∧
        (∀ a, 0x200 + image.length ≤ a → a < 4096 → byteAt u a = 0) ∧ (∀ a, a < 0x200 → byteAt u a = byteAt s a) ∧
        u.plen = image.length)

/-- Load writes the image at 0x200 and `PLEN`, and nothing else; an image longer than 3584 bytes ends in MemoryOutOfBounds at
address 4096 with its first 3584 bytes written and `PLEN` anything from 0 to 3584 (decision D27, log 30; the address carried: log 28). -/
def Obligations.LoadWritesImageOnly : Prop :=
  ∀ (s : State) (image : List Byte), Memory.wf s.mem = true →
    (image.length ≤ 3584 → ∃ t, perform (.load image) s = .next t ∧ t.plen = image.length ∧
      (∀ j, (h : j < image.length) → byteAt t (0x200 + j) = image[j]) ∧ sameMemOutside 0x200 image.length s t ∧
      sameV s t ∧ t.i = s.i ∧ t.pc = s.pc ∧ sameStack s t ∧ sameTimers s t ∧ t.kl = s.kl ∧ sameDisplay s t ∧
      t.key = s.key ∧ t.host = s.host ∧ sameSupply s t) ∧
    (3584 < image.length → ∃ t, perform (.load image) s = .fault (.memoryOutOfBounds 4096 t) ∧ t.plen ≤ 3584 ∧
      (∀ j, (h : j < image.length) → j < 3584 → byteAt t (0x200 + j) = image[j]) ∧ sameMemOutside 0x200 3584 s t ∧
      sameV s t ∧ t.i = s.i ∧ t.pc = s.pc ∧ sameStack s t ∧ sameTimers s t ∧ t.kl = s.kl ∧ sameDisplay s t ∧
      t.key = s.key)

/-- R248: set-key changes one key and nothing else. -/
def Obligations.SetKeyChangesOneKey : Prop :=
  ∀ (s : State) (k : Key) (down : Bool), ∃ t, perform (.setKey k down) s = .next t ∧ t.key[k] = down ∧
    (∀ j : Key, j ≠ k → t.key[j] = s.key[j]) ∧ sameV s t ∧ t.i = s.i ∧ t.pc = s.pc ∧ sameStack s t ∧ sameTimers s t ∧
    t.kl = s.kl ∧ sameMem s t ∧ sameDisplay s t ∧ t.plen = s.plen ∧ t.host = s.host ∧ sameSupply s t

/-- R250: sync-display hands over the whole grid exactly when the changed flag is set, and clears the flag; a second one delivers
nothing. -/
def Obligations.SyncDisplayDeliversOnce : Prop :=
  ∀ s : State, ∃ t, perform .syncDisplay s = .next t ∧ (s.dchg = true → syncFrame s = some s.disp) ∧
    (s.dchg = false → syncFrame s = none) ∧ t.dchg = false ∧ syncFrame t = none ∧ t.disp = s.disp ∧ sameV s t ∧
    t.i = s.i ∧ t.pc = s.pc ∧ sameStack s t ∧ sameTimers s t ∧ t.kl = s.kl ∧ sameMem s t ∧ sameRest s t
end

