-- ==== Sys2Proof/Laws/Decode.lean ====
section
/-! SUPPORT. The fields of the words that the encoder's formats build, and the words that the fields build back (30_encoding.md
R91, R93); the bytes of a word. -/

namespace Sys2Proof

/-! ### Fields as numbers -/

theorem fieldLead_toNat (op : Word) : (fieldLead op).toNat = op.toNat / 4096 := by
  have := op.isLt
  simp [fieldLead, Nat.shiftRight_eq_div_pow]
  omega

theorem fieldX_val (op : Word) : (fieldX op).val = op.toNat / 256 % 16 := by
  simp [fieldX, Nat.shiftRight_eq_div_pow]

theorem fieldY_val (op : Word) : (fieldY op).val = op.toNat / 16 % 16 := by
  simp [fieldY, Nat.shiftRight_eq_div_pow]

theorem fieldN_toNat (op : Word) : (fieldN op).toNat = op.toNat % 16 := by
  simp [fieldN]

theorem fieldNN_toNat (op : Word) : (fieldNN op).toNat = op.toNat % 256 := by
  simp [fieldNN]

theorem fieldNNN_toNat (op : Word) : (fieldNNN op).toNat = op.toNat % 4096 := by
  simp [fieldNNN]
  omega

/-! ### Formats as numbers -/

theorem formatA_toNat {lead : Nat} (h : lead < 16) (nnn : Word) :
    (formatA lead nnn).toNat = lead * 4096 + nnn.toNat % 4096 := by
  simp [formatA]; omega

theorem formatXI_toNat {lead : Nat} (h : lead < 16) (x : Reg) (nn : Byte) :
    (formatXI lead x nn).toNat = lead * 4096 + x.val * 256 + nn.toNat := by
  have := x.isLt; have := nn.isLt
  simp [formatXI]; omega

theorem formatXY_toNat {lead : Nat} (h : lead < 16) (x y : Reg) (n : Nat) :
    (formatXY lead x y n).toNat = lead * 4096 + x.val * 256 + y.val * 16 + n % 16 := by
  have := x.isLt; have := y.isLt
  simp [formatXY]; omega

theorem formatX_toNat {lead : Nat} (h : lead < 16) (x : Reg) (sub : Byte) :
    (formatX lead x sub).toNat = lead * 4096 + x.val * 256 + sub.toNat := by
  have := x.isLt; have := sub.isLt
  simp [formatX]; omega

/-! ### Fields of formats -/

theorem fieldLead_formatA {lead : Nat} (h : lead < 16) (nnn : Word) :
    fieldLead (formatA lead nnn) = BitVec.ofNat 4 lead := by
  apply BitVec.eq_of_toNat_eq
  rw [fieldLead_toNat, formatA_toNat h]; simp; omega

theorem fieldNNN_formatA {lead : Nat} (h : lead < 16) {nnn : Word} (hn : nnn.toNat < 4096) :
    fieldNNN (formatA lead nnn) = nnn := by
  apply BitVec.eq_of_toNat_eq
  rw [fieldNNN_toNat, formatA_toNat h]; omega

theorem fieldLead_formatXI {lead : Nat} (h : lead < 16) (x : Reg) (nn : Byte) :
    fieldLead (formatXI lead x nn) = BitVec.ofNat 4 lead := by
  have := x.isLt; have := nn.isLt
  apply BitVec.eq_of_toNat_eq
  rw [fieldLead_toNat, formatXI_toNat h]; simp; omega

theorem fieldX_formatXI {lead : Nat} (h : lead < 16) (x : Reg) (nn : Byte) : fieldX (formatXI lead x nn) = x := by
  have := x.isLt; have := nn.isLt
  apply Fin.ext
  rw [fieldX_val, formatXI_toNat h]; omega

theorem fieldNN_formatXI {lead : Nat} (h : lead < 16) (x : Reg) (nn : Byte) : fieldNN (formatXI lead x nn) = nn := by
  have := x.isLt; have := nn.isLt
  apply BitVec.eq_of_toNat_eq
  rw [fieldNN_toNat, formatXI_toNat h]; omega

theorem fieldLead_formatXY {lead : Nat} (h : lead < 16) (x y : Reg) (n : Nat) :
    fieldLead (formatXY lead x y n) = BitVec.ofNat 4 lead := by
  have := x.isLt; have := y.isLt
  apply BitVec.eq_of_toNat_eq
  rw [fieldLead_toNat, formatXY_toNat h]; simp; omega

theorem fieldX_formatXY {lead : Nat} (h : lead < 16) (x y : Reg) (n : Nat) : fieldX (formatXY lead x y n) = x := by
  have := x.isLt; have := y.isLt
  apply Fin.ext
  rw [fieldX_val, formatXY_toNat h]; omega

theorem fieldY_formatXY {lead : Nat} (h : lead < 16) (x y : Reg) (n : Nat) : fieldY (formatXY lead x y n) = y := by
  have := x.isLt; have := y.isLt
  apply Fin.ext
  rw [fieldY_val, formatXY_toNat h]; omega

theorem fieldN_formatXY {lead : Nat} (h : lead < 16) (x y : Reg) (n : Nat) :
    fieldN (formatXY lead x y n) = BitVec.ofNat 4 n := by
  have := x.isLt; have := y.isLt
  apply BitVec.eq_of_toNat_eq
  rw [fieldN_toNat, formatXY_toNat h]; simp; omega

theorem fieldLead_formatX {lead : Nat} (h : lead < 16) (x : Reg) (sub : Byte) :
    fieldLead (formatX lead x sub) = BitVec.ofNat 4 lead := by
  have := x.isLt; have := sub.isLt
  apply BitVec.eq_of_toNat_eq
  rw [fieldLead_toNat, formatX_toNat h]; simp; omega

theorem fieldX_formatX {lead : Nat} (h : lead < 16) (x : Reg) (sub : Byte) : fieldX (formatX lead x sub) = x := by
  have := x.isLt; have := sub.isLt
  apply Fin.ext
  rw [fieldX_val, formatX_toNat h]; omega

theorem fieldNN_formatX {lead : Nat} (h : lead < 16) (x : Reg) (sub : Byte) : fieldNN (formatX lead x sub) = sub := by
  have := x.isLt; have := sub.isLt
  apply BitVec.eq_of_toNat_eq
  rw [fieldNN_toNat, formatX_toNat h]; omega

/-! ### Formats of fields -/

theorem formatA_of_fields (op : Word) : formatA (fieldLead op).toNat (fieldNNN op) = op := by
  have := op.isLt
  apply BitVec.eq_of_toNat_eq
  rw [formatA_toNat (fieldLead op).isLt, fieldLead_toNat, fieldNNN_toNat]; omega

theorem formatXI_of_fields (op : Word) : formatXI (fieldLead op).toNat (fieldX op) (fieldNN op) = op := by
  have := op.isLt
  apply BitVec.eq_of_toNat_eq
  rw [formatXI_toNat (fieldLead op).isLt, fieldLead_toNat, fieldX_val, fieldNN_toNat]; omega

theorem formatXY_of_fields (op : Word) :
    formatXY (fieldLead op).toNat (fieldX op) (fieldY op) (fieldN op).toNat = op := by
  have := op.isLt
  apply BitVec.eq_of_toNat_eq
  rw [formatXY_toNat (fieldLead op).isLt, fieldLead_toNat, fieldX_val, fieldY_val, fieldN_toNat]; omega

/-! ### Bytes -/

/-- R64, R90: a word is read back from its two bytes. -/
theorem wordOfBytes_bytes (w : Word) : wordOfBytes (hiByte w) (loByte w) = w := by
  have := w.isLt
  apply BitVec.eq_of_toNat_eq
  simp [wordOfBytes, hiByte, loByte, Nat.shiftRight_eq_div_pow]
  omega

end Sys2Proof
end

