-- ==== Sys2Proof/Laws/State.lean ====
section
/-! SUPPORT. One lemma per field per update of the state: what each named update leaves in each field. -/

namespace Sys2Proof.Machine

/-- The sizes of the state are those of 00_scope.md R6. -/
theorem sizes_of_state (s : State) :
    s.v.toArray.size = Config.nreg ∧ s.stack.toArray.size = Config.stackDepth ∧ s.key.toArray.size = Config.nkeys ∧
    s.disp.toArray.size = Config.dispH ∧ (∀ r : Fin 32, s.disp[r].toArray.size = Config.dispW) := by
  simp

/-- The widths of the state are those of 00_scope.md R6. -/
theorem widths_of_state :
    Byte = BitVec Config.regWidth ∧ Byte = BitVec Config.timerWidth ∧ Word = BitVec Config.indexWidth ∧
    Word = BitVec Config.pcWidth ∧ Word = BitVec Config.stackWidth ∧ Word = BitVec Config.instrBits :=
  ⟨rfl, rfl, rfl, rfl, rfl, rfl⟩

/-! ### writeV -/

@[simp] theorem writeV_v (r : Reg) (b : Byte) (s : State) : (writeV r b s).v = s.v.set r b := rfl
@[simp] theorem writeV_i (r : Reg) (b : Byte) (s : State) : (writeV r b s).i = s.i := rfl
@[simp] theorem writeV_pc (r : Reg) (b : Byte) (s : State) : (writeV r b s).pc = s.pc := rfl
@[simp] theorem writeV_stack (r : Reg) (b : Byte) (s : State) : (writeV r b s).stack = s.stack := rfl
@[simp] theorem writeV_sp (r : Reg) (b : Byte) (s : State) : (writeV r b s).sp = s.sp := rfl
@[simp] theorem writeV_dt (r : Reg) (b : Byte) (s : State) : (writeV r b s).dt = s.dt := rfl
@[simp] theorem writeV_st (r : Reg) (b : Byte) (s : State) : (writeV r b s).st = s.st := rfl
@[simp] theorem writeV_kl (r : Reg) (b : Byte) (s : State) : (writeV r b s).kl = s.kl := rfl
@[simp] theorem writeV_mem (r : Reg) (b : Byte) (s : State) : (writeV r b s).mem = s.mem := rfl
@[simp] theorem writeV_disp (r : Reg) (b : Byte) (s : State) : (writeV r b s).disp = s.disp := rfl
@[simp] theorem writeV_dchg (r : Reg) (b : Byte) (s : State) : (writeV r b s).dchg = s.dchg := rfl
@[simp] theorem writeV_key (r : Reg) (b : Byte) (s : State) : (writeV r b s).key = s.key := rfl
@[simp] theorem writeV_plen (r : Reg) (b : Byte) (s : State) : (writeV r b s).plen = s.plen := rfl
@[simp] theorem writeV_host (r : Reg) (b : Byte) (s : State) : (writeV r b s).host = s.host := rfl
@[simp] theorem writeV_rndIn (r : Reg) (b : Byte) (s : State) : (writeV r b s).rndIn = s.rndIn := rfl
@[simp] theorem writeV_draws (r : Reg) (b : Byte) (s : State) : (writeV r b s).draws = s.draws := rfl
@[simp] theorem byteAt_writeV (r : Reg) (b : Byte) (s : State) (p : Nat) : byteAt (writeV r b s) p = byteAt s p := rfl

/-! ### setI -/

@[simp] theorem setI_v (a : Word) (s : State) : (setI a s).v = s.v := rfl
@[simp] theorem setI_i (a : Word) (s : State) : (setI a s).i = a := rfl
@[simp] theorem setI_pc (a : Word) (s : State) : (setI a s).pc = s.pc := rfl
@[simp] theorem setI_stack (a : Word) (s : State) : (setI a s).stack = s.stack := rfl
@[simp] theorem setI_sp (a : Word) (s : State) : (setI a s).sp = s.sp := rfl
@[simp] theorem setI_dt (a : Word) (s : State) : (setI a s).dt = s.dt := rfl
@[simp] theorem setI_st (a : Word) (s : State) : (setI a s).st = s.st := rfl
@[simp] theorem setI_kl (a : Word) (s : State) : (setI a s).kl = s.kl := rfl
@[simp] theorem setI_mem (a : Word) (s : State) : (setI a s).mem = s.mem := rfl
@[simp] theorem setI_disp (a : Word) (s : State) : (setI a s).disp = s.disp := rfl
@[simp] theorem setI_dchg (a : Word) (s : State) : (setI a s).dchg = s.dchg := rfl
@[simp] theorem setI_key (a : Word) (s : State) : (setI a s).key = s.key := rfl
@[simp] theorem setI_plen (a : Word) (s : State) : (setI a s).plen = s.plen := rfl
@[simp] theorem setI_host (a : Word) (s : State) : (setI a s).host = s.host := rfl
@[simp] theorem setI_rndIn (a : Word) (s : State) : (setI a s).rndIn = s.rndIn := rfl
@[simp] theorem setI_draws (a : Word) (s : State) : (setI a s).draws = s.draws := rfl
@[simp] theorem readV_setI (a : Word) (s : State) (q : Reg) : readV (setI a s) q = readV s q := rfl
@[simp] theorem byteAt_setI (a : Word) (s : State) (p : Nat) : byteAt (setI a s) p = byteAt s p := rfl

/-! ### setPc -/

@[simp] theorem setPc_v (a : Word) (s : State) : (setPc a s).v = s.v := rfl
@[simp] theorem setPc_i (a : Word) (s : State) : (setPc a s).i = s.i := rfl
@[simp] theorem setPc_pc (a : Word) (s : State) : (setPc a s).pc = a := rfl
@[simp] theorem setPc_stack (a : Word) (s : State) : (setPc a s).stack = s.stack := rfl
@[simp] theorem setPc_sp (a : Word) (s : State) : (setPc a s).sp = s.sp := rfl
@[simp] theorem setPc_dt (a : Word) (s : State) : (setPc a s).dt = s.dt := rfl
@[simp] theorem setPc_st (a : Word) (s : State) : (setPc a s).st = s.st := rfl
@[simp] theorem setPc_kl (a : Word) (s : State) : (setPc a s).kl = s.kl := rfl
@[simp] theorem setPc_mem (a : Word) (s : State) : (setPc a s).mem = s.mem := rfl
@[simp] theorem setPc_disp (a : Word) (s : State) : (setPc a s).disp = s.disp := rfl
@[simp] theorem setPc_dchg (a : Word) (s : State) : (setPc a s).dchg = s.dchg := rfl
@[simp] theorem setPc_key (a : Word) (s : State) : (setPc a s).key = s.key := rfl
@[simp] theorem setPc_plen (a : Word) (s : State) : (setPc a s).plen = s.plen := rfl
@[simp] theorem setPc_host (a : Word) (s : State) : (setPc a s).host = s.host := rfl
@[simp] theorem setPc_rndIn (a : Word) (s : State) : (setPc a s).rndIn = s.rndIn := rfl
@[simp] theorem setPc_draws (a : Word) (s : State) : (setPc a s).draws = s.draws := rfl
@[simp] theorem readV_setPc (a : Word) (s : State) (q : Reg) : readV (setPc a s) q = readV s q := rfl
@[simp] theorem byteAt_setPc (a : Word) (s : State) (p : Nat) : byteAt (setPc a s) p = byteAt s p := rfl

/-! ### setDt -/

@[simp] theorem setDt_v (b : Byte) (s : State) : (setDt b s).v = s.v := rfl
@[simp] theorem setDt_i (b : Byte) (s : State) : (setDt b s).i = s.i := rfl
@[simp] theorem setDt_pc (b : Byte) (s : State) : (setDt b s).pc = s.pc := rfl
@[simp] theorem setDt_stack (b : Byte) (s : State) : (setDt b s).stack = s.stack := rfl
@[simp] theorem setDt_sp (b : Byte) (s : State) : (setDt b s).sp = s.sp := rfl
@[simp] theorem setDt_dt (b : Byte) (s : State) : (setDt b s).dt = b := rfl
@[simp] theorem setDt_st (b : Byte) (s : State) : (setDt b s).st = s.st := rfl
@[simp] theorem setDt_kl (b : Byte) (s : State) : (setDt b s).kl = s.kl := rfl
@[simp] theorem setDt_mem (b : Byte) (s : State) : (setDt b s).mem = s.mem := rfl
@[simp] theorem setDt_disp (b : Byte) (s : State) : (setDt b s).disp = s.disp := rfl
@[simp] theorem setDt_dchg (b : Byte) (s : State) : (setDt b s).dchg = s.dchg := rfl
@[simp] theorem setDt_key (b : Byte) (s : State) : (setDt b s).key = s.key := rfl
@[simp] theorem setDt_plen (b : Byte) (s : State) : (setDt b s).plen = s.plen := rfl
@[simp] theorem setDt_host (b : Byte) (s : State) : (setDt b s).host = s.host := rfl
@[simp] theorem setDt_rndIn (b : Byte) (s : State) : (setDt b s).rndIn = s.rndIn := rfl
@[simp] theorem setDt_draws (b : Byte) (s : State) : (setDt b s).draws = s.draws := rfl
@[simp] theorem readV_setDt (b : Byte) (s : State) (q : Reg) : readV (setDt b s) q = readV s q := rfl
@[simp] theorem byteAt_setDt (b : Byte) (s : State) (p : Nat) : byteAt (setDt b s) p = byteAt s p := rfl

/-! ### setSt -/

@[simp] theorem setSt_v (b : Byte) (s : State) : (setSt b s).v = s.v := rfl
@[simp] theorem setSt_i (b : Byte) (s : State) : (setSt b s).i = s.i := rfl
@[simp] theorem setSt_pc (b : Byte) (s : State) : (setSt b s).pc = s.pc := rfl
@[simp] theorem setSt_stack (b : Byte) (s : State) : (setSt b s).stack = s.stack := rfl
@[simp] theorem setSt_sp (b : Byte) (s : State) : (setSt b s).sp = s.sp := rfl
@[simp] theorem setSt_dt (b : Byte) (s : State) : (setSt b s).dt = s.dt := rfl
@[simp] theorem setSt_st (b : Byte) (s : State) : (setSt b s).st = b := rfl
@[simp] theorem setSt_kl (b : Byte) (s : State) : (setSt b s).kl = s.kl := rfl
@[simp] theorem setSt_mem (b : Byte) (s : State) : (setSt b s).mem = s.mem := rfl
@[simp] theorem setSt_disp (b : Byte) (s : State) : (setSt b s).disp = s.disp := rfl
@[simp] theorem setSt_dchg (b : Byte) (s : State) : (setSt b s).dchg = s.dchg := rfl
@[simp] theorem setSt_key (b : Byte) (s : State) : (setSt b s).key = s.key := rfl
@[simp] theorem setSt_plen (b : Byte) (s : State) : (setSt b s).plen = s.plen := rfl
@[simp] theorem setSt_host (b : Byte) (s : State) : (setSt b s).host = s.host := rfl
@[simp] theorem setSt_rndIn (b : Byte) (s : State) : (setSt b s).rndIn = s.rndIn := rfl
@[simp] theorem setSt_draws (b : Byte) (s : State) : (setSt b s).draws = s.draws := rfl
@[simp] theorem readV_setSt (b : Byte) (s : State) (q : Reg) : readV (setSt b s) q = readV s q := rfl
@[simp] theorem byteAt_setSt (b : Byte) (s : State) (p : Nat) : byteAt (setSt b s) p = byteAt s p := rfl

/-! ### setKl -/

@[simp] theorem setKl_v (k : Option Key) (s : State) : (setKl k s).v = s.v := rfl
@[simp] theorem setKl_i (k : Option Key) (s : State) : (setKl k s).i = s.i := rfl
@[simp] theorem setKl_pc (k : Option Key) (s : State) : (setKl k s).pc = s.pc := rfl
@[simp] theorem setKl_stack (k : Option Key) (s : State) : (setKl k s).stack = s.stack := rfl
@[simp] theorem setKl_sp (k : Option Key) (s : State) : (setKl k s).sp = s.sp := rfl
@[simp] theorem setKl_dt (k : Option Key) (s : State) : (setKl k s).dt = s.dt := rfl
@[simp] theorem setKl_st (k : Option Key) (s : State) : (setKl k s).st = s.st := rfl
@[simp] theorem setKl_kl (k : Option Key) (s : State) : (setKl k s).kl = k := rfl
@[simp] theorem setKl_mem (k : Option Key) (s : State) : (setKl k s).mem = s.mem := rfl
@[simp] theorem setKl_disp (k : Option Key) (s : State) : (setKl k s).disp = s.disp := rfl
@[simp] theorem setKl_dchg (k : Option Key) (s : State) : (setKl k s).dchg = s.dchg := rfl
@[simp] theorem setKl_key (k : Option Key) (s : State) : (setKl k s).key = s.key := rfl
@[simp] theorem setKl_plen (k : Option Key) (s : State) : (setKl k s).plen = s.plen := rfl
@[simp] theorem setKl_host (k : Option Key) (s : State) : (setKl k s).host = s.host := rfl
@[simp] theorem setKl_rndIn (k : Option Key) (s : State) : (setKl k s).rndIn = s.rndIn := rfl
@[simp] theorem setKl_draws (k : Option Key) (s : State) : (setKl k s).draws = s.draws := rfl
@[simp] theorem readV_setKl (k : Option Key) (s : State) (q : Reg) : readV (setKl k s) q = readV s q := rfl
@[simp] theorem byteAt_setKl (k : Option Key) (s : State) (p : Nat) : byteAt (setKl k s) p = byteAt s p := rfl

/-! ### setDisplay -/

@[simp] theorem setDisplay_v (d : Display) (c : Bool) (s : State) : (setDisplay d c s).v = s.v := rfl
@[simp] theorem setDisplay_i (d : Display) (c : Bool) (s : State) : (setDisplay d c s).i = s.i := rfl
@[simp] theorem setDisplay_pc (d : Display) (c : Bool) (s : State) : (setDisplay d c s).pc = s.pc := rfl
@[simp] theorem setDisplay_stack (d : Display) (c : Bool) (s : State) : (setDisplay d c s).stack = s.stack := rfl
@[simp] theorem setDisplay_sp (d : Display) (c : Bool) (s : State) : (setDisplay d c s).sp = s.sp := rfl
@[simp] theorem setDisplay_dt (d : Display) (c : Bool) (s : State) : (setDisplay d c s).dt = s.dt := rfl
@[simp] theorem setDisplay_st (d : Display) (c : Bool) (s : State) : (setDisplay d c s).st = s.st := rfl
@[simp] theorem setDisplay_kl (d : Display) (c : Bool) (s : State) : (setDisplay d c s).kl = s.kl := rfl
@[simp] theorem setDisplay_mem (d : Display) (c : Bool) (s : State) : (setDisplay d c s).mem = s.mem := rfl
@[simp] theorem setDisplay_disp (d : Display) (c : Bool) (s : State) : (setDisplay d c s).disp = d := rfl
@[simp] theorem setDisplay_dchg (d : Display) (c : Bool) (s : State) : (setDisplay d c s).dchg = c := rfl
@[simp] theorem setDisplay_key (d : Display) (c : Bool) (s : State) : (setDisplay d c s).key = s.key := rfl
@[simp] theorem setDisplay_plen (d : Display) (c : Bool) (s : State) : (setDisplay d c s).plen = s.plen := rfl
@[simp] theorem setDisplay_host (d : Display) (c : Bool) (s : State) : (setDisplay d c s).host = s.host := rfl
@[simp] theorem setDisplay_rndIn (d : Display) (c : Bool) (s : State) : (setDisplay d c s).rndIn = s.rndIn := rfl
@[simp] theorem setDisplay_draws (d : Display) (c : Bool) (s : State) : (setDisplay d c s).draws = s.draws := rfl
@[simp] theorem readV_setDisplay (d : Display) (c : Bool) (s : State) (q : Reg) : readV (setDisplay d c s) q = readV s q := rfl
@[simp] theorem byteAt_setDisplay (d : Display) (c : Bool) (s : State) (p : Nat) : byteAt (setDisplay d c s) p = byteAt s p := rfl

/-! ### countDraw -/

@[simp] theorem countDraw_v (s : State) : (countDraw s).v = s.v := rfl
@[simp] theorem countDraw_i (s : State) : (countDraw s).i = s.i := rfl
@[simp] theorem countDraw_pc (s : State) : (countDraw s).pc = s.pc := rfl
@[simp] theorem countDraw_stack (s : State) : (countDraw s).stack = s.stack := rfl
@[simp] theorem countDraw_sp (s : State) : (countDraw s).sp = s.sp := rfl
@[simp] theorem countDraw_dt (s : State) : (countDraw s).dt = s.dt := rfl
@[simp] theorem countDraw_st (s : State) : (countDraw s).st = s.st := rfl
@[simp] theorem countDraw_kl (s : State) : (countDraw s).kl = s.kl := rfl
@[simp] theorem countDraw_mem (s : State) : (countDraw s).mem = s.mem := rfl
@[simp] theorem countDraw_disp (s : State) : (countDraw s).disp = s.disp := rfl
@[simp] theorem countDraw_dchg (s : State) : (countDraw s).dchg = s.dchg := rfl
@[simp] theorem countDraw_key (s : State) : (countDraw s).key = s.key := rfl
@[simp] theorem countDraw_plen (s : State) : (countDraw s).plen = s.plen := rfl
@[simp] theorem countDraw_host (s : State) : (countDraw s).host = s.host := rfl
@[simp] theorem countDraw_rndIn (s : State) : (countDraw s).rndIn = s.rndIn := rfl
@[simp] theorem countDraw_draws (s : State) : (countDraw s).draws = s.draws + 1 := rfl
@[simp] theorem readV_countDraw (s : State) (q : Reg) : readV (countDraw s) q = readV s q := rfl
@[simp] theorem byteAt_countDraw (s : State) (p : Nat) : byteAt (countDraw s) p = byteAt s p := rfl

/-! ### ticks -/

@[simp] theorem ticks_v (n : Nat) (s : State) : (ticks n s).v = s.v := rfl
@[simp] theorem ticks_i (n : Nat) (s : State) : (ticks n s).i = s.i := rfl
@[simp] theorem ticks_pc (n : Nat) (s : State) : (ticks n s).pc = s.pc := rfl
@[simp] theorem ticks_stack (n : Nat) (s : State) : (ticks n s).stack = s.stack := rfl
@[simp] theorem ticks_sp (n : Nat) (s : State) : (ticks n s).sp = s.sp := rfl
@[simp] theorem ticks_dt (n : Nat) (s : State) : (ticks n s).dt = iterate tickDelay n s.dt := rfl
@[simp] theorem ticks_st (n : Nat) (s : State) : (ticks n s).st = iterate tickSound n s.st := rfl
@[simp] theorem ticks_kl (n : Nat) (s : State) : (ticks n s).kl = s.kl := rfl
@[simp] theorem ticks_mem (n : Nat) (s : State) : (ticks n s).mem = s.mem := rfl
@[simp] theorem ticks_disp (n : Nat) (s : State) : (ticks n s).disp = s.disp := rfl
@[simp] theorem ticks_dchg (n : Nat) (s : State) : (ticks n s).dchg = s.dchg := rfl
@[simp] theorem ticks_key (n : Nat) (s : State) : (ticks n s).key = s.key := rfl
@[simp] theorem ticks_plen (n : Nat) (s : State) : (ticks n s).plen = s.plen := rfl
@[simp] theorem ticks_host (n : Nat) (s : State) : (ticks n s).host = s.host := rfl
@[simp] theorem ticks_rndIn (n : Nat) (s : State) : (ticks n s).rndIn = s.rndIn := rfl
@[simp] theorem ticks_draws (n : Nat) (s : State) : (ticks n s).draws = s.draws := rfl
@[simp] theorem readV_ticks (n : Nat) (s : State) (q : Reg) : readV (ticks n s) q = readV s q := rfl
@[simp] theorem byteAt_ticks (n : Nat) (s : State) (p : Nat) : byteAt (ticks n s) p = byteAt s p := rfl

/-! ### setKey -/

@[simp] theorem setKey_v (k : Key) (b : Bool) (s : State) : (setKey k b s).v = s.v := rfl
@[simp] theorem setKey_i (k : Key) (b : Bool) (s : State) : (setKey k b s).i = s.i := rfl
@[simp] theorem setKey_pc (k : Key) (b : Bool) (s : State) : (setKey k b s).pc = s.pc := rfl
@[simp] theorem setKey_stack (k : Key) (b : Bool) (s : State) : (setKey k b s).stack = s.stack := rfl
@[simp] theorem setKey_sp (k : Key) (b : Bool) (s : State) : (setKey k b s).sp = s.sp := rfl
@[simp] theorem setKey_dt (k : Key) (b : Bool) (s : State) : (setKey k b s).dt = s.dt := rfl
@[simp] theorem setKey_st (k : Key) (b : Bool) (s : State) : (setKey k b s).st = s.st := rfl
@[simp] theorem setKey_kl (k : Key) (b : Bool) (s : State) : (setKey k b s).kl = s.kl := rfl
@[simp] theorem setKey_mem (k : Key) (b : Bool) (s : State) : (setKey k b s).mem = s.mem := rfl
@[simp] theorem setKey_disp (k : Key) (b : Bool) (s : State) : (setKey k b s).disp = s.disp := rfl
@[simp] theorem setKey_dchg (k : Key) (b : Bool) (s : State) : (setKey k b s).dchg = s.dchg := rfl
@[simp] theorem setKey_key (k : Key) (b : Bool) (s : State) : (setKey k b s).key = s.key.set k b := rfl
@[simp] theorem setKey_plen (k : Key) (b : Bool) (s : State) : (setKey k b s).plen = s.plen := rfl
@[simp] theorem setKey_host (k : Key) (b : Bool) (s : State) : (setKey k b s).host = s.host := rfl
@[simp] theorem setKey_rndIn (k : Key) (b : Bool) (s : State) : (setKey k b s).rndIn = s.rndIn := rfl
@[simp] theorem setKey_draws (k : Key) (b : Bool) (s : State) : (setKey k b s).draws = s.draws := rfl
@[simp] theorem readV_setKey (k : Key) (b : Bool) (s : State) (q : Reg) : readV (setKey k b s) q = readV s q := rfl
@[simp] theorem byteAt_setKey (k : Key) (b : Bool) (s : State) (p : Nat) : byteAt (setKey k b s) p = byteAt s p := rfl

/-! ### inputReset -/

@[simp] theorem inputReset_v (s : State) : (inputReset s).v = s.v := rfl
@[simp] theorem inputReset_i (s : State) : (inputReset s).i = s.i := rfl
@[simp] theorem inputReset_pc (s : State) : (inputReset s).pc = s.pc := rfl
@[simp] theorem inputReset_stack (s : State) : (inputReset s).stack = s.stack := rfl
@[simp] theorem inputReset_sp (s : State) : (inputReset s).sp = s.sp := rfl
@[simp] theorem inputReset_dt (s : State) : (inputReset s).dt = s.dt := rfl
@[simp] theorem inputReset_st (s : State) : (inputReset s).st = s.st := rfl
@[simp] theorem inputReset_kl (s : State) : (inputReset s).kl = s.kl := rfl
@[simp] theorem inputReset_mem (s : State) : (inputReset s).mem = s.mem := rfl
@[simp] theorem inputReset_disp (s : State) : (inputReset s).disp = s.disp := rfl
@[simp] theorem inputReset_dchg (s : State) : (inputReset s).dchg = s.dchg := rfl
@[simp] theorem inputReset_key (s : State) : (inputReset s).key = Vector.replicate 16 false := rfl
@[simp] theorem inputReset_plen (s : State) : (inputReset s).plen = s.plen := rfl
@[simp] theorem inputReset_host (s : State) : (inputReset s).host = s.host := rfl
@[simp] theorem inputReset_rndIn (s : State) : (inputReset s).rndIn = s.rndIn := rfl
@[simp] theorem inputReset_draws (s : State) : (inputReset s).draws = s.draws := rfl
@[simp] theorem readV_inputReset (s : State) (q : Reg) : readV (inputReset s) q = readV s q := rfl
@[simp] theorem byteAt_inputReset (s : State) (p : Nat) : byteAt (inputReset s) p = byteAt s p := rfl

/-! ### syncDisplay -/

@[simp] theorem syncDisplay_v (s : State) : (syncDisplay s).v = s.v := rfl
@[simp] theorem syncDisplay_i (s : State) : (syncDisplay s).i = s.i := rfl
@[simp] theorem syncDisplay_pc (s : State) : (syncDisplay s).pc = s.pc := rfl
@[simp] theorem syncDisplay_stack (s : State) : (syncDisplay s).stack = s.stack := rfl
@[simp] theorem syncDisplay_sp (s : State) : (syncDisplay s).sp = s.sp := rfl
@[simp] theorem syncDisplay_dt (s : State) : (syncDisplay s).dt = s.dt := rfl
@[simp] theorem syncDisplay_st (s : State) : (syncDisplay s).st = s.st := rfl
@[simp] theorem syncDisplay_kl (s : State) : (syncDisplay s).kl = s.kl := rfl
@[simp] theorem syncDisplay_mem (s : State) : (syncDisplay s).mem = s.mem := rfl
@[simp] theorem syncDisplay_disp (s : State) : (syncDisplay s).disp = s.disp := rfl
@[simp] theorem syncDisplay_dchg (s : State) : (syncDisplay s).dchg = false := rfl
@[simp] theorem syncDisplay_key (s : State) : (syncDisplay s).key = s.key := rfl
@[simp] theorem syncDisplay_plen (s : State) : (syncDisplay s).plen = s.plen := rfl
@[simp] theorem syncDisplay_host (s : State) : (syncDisplay s).host = s.host := rfl
@[simp] theorem syncDisplay_rndIn (s : State) : (syncDisplay s).rndIn = s.rndIn := rfl
@[simp] theorem syncDisplay_draws (s : State) : (syncDisplay s).draws = s.draws := rfl
@[simp] theorem readV_syncDisplay (s : State) (q : Reg) : readV (syncDisplay s) q = readV s q := rfl
@[simp] theorem byteAt_syncDisplay (s : State) (p : Nat) : byteAt (syncDisplay s) p = byteAt s p := rfl

/-- Reading a register after a write: the written byte in that register, the old one in every other. -/
theorem readV_writeV (r q : Reg) (b : Byte) (s : State) :
    readV (writeV r b s) q = if q = r then b else readV s q := by
  by_cases h : q = r
  · subst h; simp [readV, writeV]
  · have h' : r.val ≠ q.val := fun e => h (Fin.ext e.symm)
    simp [readV, writeV, h, Vector.getElem_set_ne, h']

/-- R140: the flag remains in `VF`, the result in `V[x]` unless that is `VF`, every other register is unchanged. -/
theorem readV_writeResultThenFlag (x q : Reg) (result flag : Byte) (s : State) :
    readV (writeResultThenFlag x result flag s) q = if q = vF then flag else if q = x then result else readV s q := by
  simp only [writeResultThenFlag, readV_writeV]


end Sys2Proof.Machine
end

