-- ==== Sys2Proof/Laws/Display.lean ====
section
/-! SUPPORT. The laws of the display (43_display.md R181, R182): plotting one pixel, one row and a whole sprite, said by what
each pixel of the grid is afterwards. -/

namespace Sys2Proof.Machine

/-- R182: `Plot` combines one pixel with the draw bit and leaves the others. -/
theorem testPixel_plotPixel (d : Display) (r c r' c' : Nat) (b : Bool) (hr : r < 32) (hc : c < 64) :
    testPixel (plotPixel d r c b) r' c' = if r' = r ∧ c' = c then testPixel d r c ^^ b else testPixel d r' c' := by
  have hp : plotPixel d r c b = d.set r ((d[r]'hr).set c ((d[r]'hr)[c]'hc ^^ b) hc) hr := dif_pos ⟨hr, hc⟩
  rw [hp]
  unfold testPixel
  by_cases h1 : r' < 32 ∧ c' < 64
  · by_cases h2 : r' = r
    · subst h2
      by_cases h3 : c' = c
      · subst h3; simp [h1]
      · have h3' : c ≠ c' := fun e => h3 e.symm
        simp [h1, h3, h3']
    · have h2' : r ≠ r' := fun e => h2 e.symm
      simp [h1, h2, h2']
  · have h2 : ¬(r' = r ∧ c' = c) := by rintro ⟨rfl, rfl⟩; exact h1 ⟨hr, hc⟩
    simp [h1, h2]

/-- R182: `Clear` leaves no pixel on. -/
theorem testPixel_blank (r c : Nat) : testPixel blankDisplay r c = false := by
  unfold testPixel blankDisplay
  split_ifs <;> simp

/-- R181, one bit of a sprite row: inside the grid a 1 bit toggles its pixel. -/
theorem plotBit_spec (r c : Nat) (b : Bool) (k : Canvas) :
    (∀ r' c', testPixel (plotBit r c b k).disp r' c' =
      (testPixel k.disp r' c' ^^ decide (r' = r ∧ c' = c ∧ r < 32 ∧ c < 64 ∧ b = true))) ∧
    (plotBit r c b k).hit = (k.hit || decide (r < 32 ∧ c < 64 ∧ b = true ∧ testPixel k.disp r c = true)) ∧
    (plotBit r c b k).toggled = (k.toggled || decide (r < 32 ∧ c < 64 ∧ b = true)) := by
  unfold plotBit
  by_cases h : r ≤ 31 ∧ c ≤ 63 ∧ b = true
  · obtain ⟨hr, hc, hb⟩ := h
    have hr' : r < 32 := by omega
    have hc' : c < 64 := by omega
    subst hb
    rw [if_pos ⟨hr, hc, rfl⟩]
    refine ⟨fun r' c' => ?_, ?_, ?_⟩
    · rw [testPixel_plotPixel k.disp r c r' c' true hr' hc']
      by_cases h2 : r' = r ∧ c' = c
      · obtain ⟨rfl, rfl⟩ := h2; simp [hr', hc']
      · rw [if_neg h2]
        have h3 : ¬(r' = r ∧ c' = c ∧ r < 32 ∧ c < 64 ∧ (true = true)) := fun e => h2 ⟨e.1, e.2.1⟩
        rw [decide_eq_false h3, Bool.xor_false]
    · simp [hr', hc']
    · simp [hr', hc']
  · rw [if_neg h]
    have h' : ¬(r < 32 ∧ c < 64 ∧ b = true) := fun e => h ⟨by omega, by omega, e.2.2⟩
    refine ⟨fun r' c' => ?_, ?_, ?_⟩
    · have h3 : ¬(r' = r ∧ c' = c ∧ r < 32 ∧ c < 64 ∧ b = true) := fun e => h' e.2.2
      rw [decide_eq_false h3, Bool.xor_false]
    · have h3 : ¬(r < 32 ∧ c < 64 ∧ b = true ∧ testPixel k.disp r c = true) := fun e => h' ⟨e.1, e.2.1, e.2.2.1⟩
      rw [decide_eq_false h3, Bool.or_false]
    · rw [decide_eq_false h', Bool.or_false]

/-- What a partly drawn sprite has done: the pixels under `on` are toggled, `hit` and `toggled` report them. -/
structure Drawn (on : Nat → Nat → Prop) (k k' : Canvas) : Prop where
  pixel   : ∀ r c, r < 32 → c < 64 → (testPixel k'.disp r c = true ↔ ¬(testPixel k.disp r c = true ↔ on r c))
  hit     : k'.hit = true ↔ k.hit = true ∨ ∃ r c, r < 32 ∧ c < 64 ∧ on r c ∧ testPixel k.disp r c = true
  toggled : k'.toggled = true ↔ k.toggled = true ∨ ∃ r c, r < 32 ∧ c < 64 ∧ on r c

theorem Drawn.refl (k : Canvas) : Drawn (fun _ _ => False) k k where
  pixel := by intro r c _ _; simp
  hit := by simp
  toggled := by simp

/-- Two parts of a sprite that do not overlap, one after the other. -/
theorem Drawn.trans {p q : Nat → Nat → Prop} {k k' k'' : Canvas} (h1 : Drawn p k k') (h2 : Drawn q k' k'')
    (hd : ∀ r c, p r c → q r c → False) : Drawn (fun r c => p r c ∨ q r c) k k'' where
  pixel := by
    intro r c hr hc
    have a := h1.pixel r c hr hc
    have b := h2.pixel r c hr hc
    have d := hd r c
    tauto
  hit := by
    rw [h2.hit, h1.hit]
    constructor
    · rintro ((h | ⟨r, c, hr, hc, hp, ht⟩) | ⟨r, c, hr, hc, hq, ht⟩)
      · exact .inl h
      · exact .inr ⟨r, c, hr, hc, .inl hp, ht⟩
      · have a := h1.pixel r c hr hc
        have d := hd r c
        exact .inr ⟨r, c, hr, hc, .inr hq, by tauto⟩
    · rintro (h | ⟨r, c, hr, hc, hp | hq, ht⟩)
      · exact .inl (.inl h)
      · exact .inl (.inr ⟨r, c, hr, hc, hp, ht⟩)
      · have a := h1.pixel r c hr hc
        have d := hd r c
        exact .inr ⟨r, c, hr, hc, hq, by tauto⟩
  toggled := by
    rw [h2.toggled, h1.toggled]
    constructor
    · rintro ((h | ⟨r, c, hr, hc, hp⟩) | ⟨r, c, hr, hc, hq⟩)
      · exact .inl h
      · exact .inr ⟨r, c, hr, hc, .inl hp⟩
      · exact .inr ⟨r, c, hr, hc, .inr hq⟩
    · rintro (h | ⟨r, c, hr, hc, hp | hq⟩)
      · exact .inl (.inl h)
      · exact .inl (.inr ⟨r, c, hr, hc, hp⟩)
      · exact .inr ⟨r, c, hr, hc, hq⟩

theorem Drawn.congr {p q : Nat → Nat → Prop} {k k' : Canvas} (h : Drawn p k k') (e : ∀ r c, p r c ↔ q r c) :
    Drawn q k k' := by
  have : p = q := funext fun r => funext fun c => propext (e r c)
  exact this ▸ h

theorem plotBit_drawn (r c : Nat) (b : Bool) (k : Canvas) :
    Drawn (fun r' c' => r' = r ∧ c' = c ∧ b = true) k (plotBit r c b k) where
  pixel := by
    intro r' c' hr hc
    rw [(plotBit_spec r c b k).1]
    by_cases h : r' = r ∧ c' = c ∧ b = true
    · obtain ⟨rfl, rfl, rfl⟩ := h; simp [hr, hc]
    · have h' : ¬(r' = r ∧ c' = c ∧ r < 32 ∧ c < 64 ∧ b = true) := fun e => h ⟨e.1, e.2.1, e.2.2.2.2⟩
      rw [decide_eq_false h', Bool.xor_false]
      tauto
  hit := by
    rw [(plotBit_spec r c b k).2.1, Bool.or_eq_true, decide_eq_true_eq]
    constructor
    · rintro (h | ⟨hr, hc, hb, ht⟩)
      · exact .inl h
      · exact .inr ⟨r, c, hr, hc, ⟨rfl, rfl, hb⟩, ht⟩
    · rintro (h | ⟨r', c', hr, hc, ⟨rfl, rfl, hb⟩, ht⟩)
      · exact .inl h
      · exact .inr ⟨hr, hc, hb, ht⟩
  toggled := by
    rw [(plotBit_spec r c b k).2.2, Bool.or_eq_true, decide_eq_true_eq]
    constructor
    · rintro (h | ⟨hr, hc, hb⟩)
      · exact .inl h
      · exact .inr ⟨r, c, hr, hc, ⟨rfl, rfl, hb⟩⟩
    · rintro (h | ⟨r', c', hr, hc, ⟨rfl, rfl, hb⟩⟩)
      · exact .inl h
      · exact .inr ⟨hr, hc, hb⟩

/-- The first `n` bits of a sprite row. -/
theorem plotBits_drawn (r x0 : Nat) (b : Byte) (k : Canvas) (n : Nat) :
    Drawn (fun r' c' => r' = r ∧ x0 ≤ c' ∧ c' < x0 + n ∧ spriteBit b (c' - x0) = true) k
      ((List.range n).foldl (fun k j => plotBit r (x0 + j) (spriteBit b j) k) k) := by
  induction n with
  | zero => exact (Drawn.refl k).congr fun r c => ⟨False.elim, fun h => by omega⟩
  | succ n ih =>
    rw [List.range_succ, List.foldl_append]
    refine (ih.trans (plotBit_drawn r (x0 + n) (spriteBit b n) _) ?_).congr ?_
    · rintro r' c' ⟨_, _, h, _⟩ ⟨_, h', _⟩; omega
    · intro r' c'
      constructor
      · rintro (⟨h1, h2, h3, h4⟩ | ⟨h1, rfl, h3⟩)
        · exact ⟨h1, h2, by omega, h4⟩
        · exact ⟨h1, by omega, by omega, by simpa using h3⟩
      · rintro ⟨h1, h2, h3, h4⟩
        by_cases h : c' = x0 + n
        · subst h; exact .inr ⟨h1, rfl, by simpa using h4⟩
        · exact .inl ⟨h1, h2, by omega, h4⟩

/-- R181: a whole sprite: exactly the pixels of the grid under one of its 1 bits are toggled. -/
theorem plotRows_drawn (y0 x0 : Nat) (rows : List Byte) (k : Canvas) :
    Drawn (fun r c => spritePixel y0 x0 rows r c = true) k (plotRows y0 x0 rows k) := by
  induction rows generalizing y0 k with
  | nil => exact (Drawn.refl k).congr fun r c => by simp [spritePixel]
  | cons b bs ih =>
    refine ((plotBits_drawn y0 x0 b k 8).trans (ih (y0 + 1) (plotRow y0 x0 b k)) ?_).congr ?_
    · rintro r c ⟨h, _⟩ h'
      simp only [spritePixel, Bool.and_eq_true, decide_eq_true_eq] at h'
      omega
    · intro r c
      simp only [spritePixel, Bool.and_eq_true, decide_eq_true_eq]
      constructor
      · rintro (⟨rfl, h2, h3, h4⟩ | ⟨⟨h1, h2, h3⟩, h4⟩)
        · exact ⟨⟨Nat.le_refl _, h2, h3⟩, by simpa using h4⟩
        · refine ⟨⟨by omega, h2, h3⟩, ?_⟩
          rw [show r - y0 = (r - (y0 + 1)) + 1 by omega, List.getElem?_cons_succ]
          exact h4
      · rintro ⟨⟨h1, h2, h3⟩, h4⟩
        by_cases h : r = y0
        · subst h; exact .inl ⟨rfl, h2, h3, by simpa using h4⟩
        · rw [show r - y0 = (r - (y0 + 1)) + 1 by omega, List.getElem?_cons_succ] at h4
          exact .inr ⟨⟨by omega, h2, h3⟩, h4⟩

/-- R181: the pixels after a draw. -/
theorem testPixel_plotRows (y0 x0 : Nat) (rows : List Byte) (k : Canvas) {r c : Nat} (hr : r < 32) (hc : c < 64) :
    testPixel (plotRows y0 x0 rows k).disp r c = (testPixel k.disp r c ^^ spritePixel y0 x0 rows r c) := by
  have h := (plotRows_drawn y0 x0 rows k).pixel r c hr hc
  cases h1 : testPixel (plotRows y0 x0 rows k).disp r c <;> cases h2 : testPixel k.disp r c <;>
    cases h3 : spritePixel y0 x0 rows r c <;> simp_all

/-- Two grids whose pixels agree are equal. -/
theorem display_ext {d e : Display} (h : ∀ r c, r < 32 → c < 64 → testPixel d r c = testPixel e r c) : d = e := by
  apply Vector.ext
  intro r hr
  apply Vector.ext
  intro c hc
  have := h r c hr hc
  simpa [testPixel, hr, hc] using this

end Sys2Proof.Machine
end

