-- ==== Sys2Proof/Laws/Memory.lean ====
section
/-! SUPPORT. The laws of main memory (20_memory.md R67, R68): reading after writing, and that every operation keeps the
canonical form. -/

namespace Sys2Proof.Machine

@[simp] theorem Memory.read_nil (a : Nat) : Memory.read [] a = Memory.unlisted a := rfl

/-- In a memory whose entries start at `low`, an address below `low` is unlisted. -/
theorem Memory.read_below {m : Memory} {low a : Nat} (h : Memory.wfFrom low m = true) (ha : a < low) :
    Memory.read m a = Memory.unlisted a := by
  induction m generalizing low with
  | nil => rfl
  | cons c rest ih =>
    obtain ⟨b, w⟩ := c
    simp only [Memory.wfFrom, Bool.and_eq_true, decide_eq_true_eq] at h
    have hb : b ≠ a := by omega
    simp only [Memory.read, if_neg hb]
    exact ih h.2 (by omega)

/-- R68 and the rest of it: a write is seen at its address and nowhere else. -/
theorem Memory.read_write {m : Memory} {low : Nat} (h : Memory.wfFrom low m = true) (a b : Nat) (x : Byte) :
    Memory.read (Memory.write m a x) b = if b = a then x else Memory.read m b := by
  induction m generalizing low with
  | nil =>
    by_cases hb : b = a
    · subst hb
      by_cases hx : x = Memory.unlisted b <;> simp [Memory.write, Memory.read, hx]
    · by_cases hx : x = Memory.unlisted a <;> simp [Memory.write, Memory.read, hx, hb, Ne.symm hb]
  | cons c rest ih =>
    obtain ⟨p, w⟩ := c
    simp only [Memory.wfFrom, Bool.and_eq_true, decide_eq_true_eq] at h
    have hrest : ∀ q, q ≤ p → Memory.read rest q = Memory.unlisted q :=
      fun q hq => Memory.read_below h.2 (by omega)
    rcases Nat.lt_trichotomy p a with h1 | h1 | h1
    · have hpa : p ≠ a := by omega
      simp only [Memory.write, if_pos h1, Memory.read, ih h.2]
      by_cases hb : b = a
      · simp [hb, hpa]
      · simp [hb]
    · subst h1
      simp only [Memory.write, Nat.lt_irrefl, if_false, if_true]
      by_cases hb : b = p
      · subst hb
        by_cases hx : x = Memory.unlisted b <;> simp [Memory.read, hx, hrest b (Nat.le_refl b)]
      · by_cases hx : x = Memory.unlisted p <;> simp [Memory.read, hx, hb, Ne.symm hb]
    · have hpa : p ≠ a := by omega
      have hn : ¬p < a := by omega
      simp only [Memory.write, if_neg hn, if_neg hpa]
      by_cases hb : b = a
      · subst hb
        by_cases hx : x = Memory.unlisted b <;> simp [Memory.read, hx, hpa, hrest b (by omega)]
      · by_cases hx : x = Memory.unlisted a <;> simp [Memory.read, hx, hb, Ne.symm hb]

/-- A write inside the address space keeps the canonical form. -/
theorem Memory.wfFrom_write {m : Memory} {low a : Nat} {x : Byte} (h : Memory.wfFrom low m = true) (hl : low ≤ a)
    (ha : a < Config.memSize) : Memory.wfFrom low (Memory.write m a x) = true := by
  induction m generalizing low with
  | nil =>
    unfold Memory.write
    split_ifs with hx <;> simp_all [Memory.wfFrom]
  | cons c rest ih =>
    obtain ⟨p, w⟩ := c
    have h' := h
    simp only [Memory.wfFrom, Bool.and_eq_true, decide_eq_true_eq] at h
    obtain ⟨⟨⟨hp, hp4⟩, hw⟩, hr⟩ := h
    have weaken : ∀ {n : Memory} {k j : Nat}, j ≤ k → Memory.wfFrom k n = true → Memory.wfFrom j n = true := by
      intro n k j hjk hn
      cases n with
      | nil => rfl
      | cons d _ =>
        simp only [Memory.wfFrom, Bool.and_eq_true, decide_eq_true_eq] at hn ⊢
        exact ⟨⟨⟨by omega, hn.1.1.2⟩, hn.1.2⟩, hn.2⟩
    unfold Memory.write
    split_ifs with h1 h2 hx hx
    · simp only [Memory.wfFrom, Bool.and_eq_true, decide_eq_true_eq]
      exact ⟨⟨⟨hp, hp4⟩, hw⟩, ih hr (by omega)⟩
    · exact weaken (by omega) hr
    · subst h2
      simp only [Memory.wfFrom, Bool.and_eq_true, decide_eq_true_eq]
      exact ⟨⟨⟨hl, ha⟩, hx⟩, hr⟩
    · exact h'
    · simp only [Memory.wfFrom, Bool.and_eq_true, decide_eq_true_eq]
      exact ⟨⟨⟨hl, ha⟩, hx⟩, ⟨⟨⟨by omega, hp4⟩, hw⟩, hr⟩⟩

theorem Memory.wf_write {m : Memory} {a : Nat} {x : Byte} (h : Memory.wf m = true) (ha : a < Config.memSize) :
    Memory.wf (Memory.write m a x) = true :=
  Memory.wfFrom_write h (Nat.zero_le a) ha

/-- Zeroing inside the address space keeps the canonical form. -/
theorem Memory.wf_zero {m : Memory} {low count : Nat} (h : Memory.wf m = true) (hc : low + count ≤ Config.memSize) :
    Memory.wf (Memory.zero m low count) = true := by
  induction count generalizing m low with
  | zero => exact h
  | succ n ih => exact ih (Memory.wf_write h (by omega)) (by omega)

/-- R67: zeroing writes 0x00 to each address of the range and nothing elsewhere. -/
theorem Memory.read_zero {m : Memory} {low count : Nat} (h : Memory.wf m = true) (hc : low + count ≤ Config.memSize)
    (b : Nat) : Memory.read (Memory.zero m low count) b = if low ≤ b ∧ b < low + count then 0 else Memory.read m b := by
  induction count generalizing m low with
  | zero =>
    simp [Memory.zero]
  | succ n ih =>
    rw [Memory.zero, ih (Memory.wf_write h (by omega)) (by omega), Memory.read_write h]
    by_cases h1 : low + 1 ≤ b ∧ b < low + 1 + n
    · have h2 : low ≤ b ∧ b < low + (n + 1) := by omega
      simp [h1, h2]
    · by_cases h3 : b = low
      · have h2 : low ≤ b ∧ b < low + (n + 1) := by omega
        rw [if_neg h1, if_pos h3, if_pos h2]
      · have h2 : ¬(low ≤ b ∧ b < low + (n + 1)) := by omega
        rw [if_neg h1, if_neg h3, if_neg h2]

end Sys2Proof.Machine
end

