-- ==== Sys2Proof/Laws/Ops.lean ====
section
/-! SUPPORT. One lemma for each shared operation that says everything it can do: byte and word reads, byte sequences read,
stored and loaded, push and pop, skips, the scan of the keys. -/

namespace Sys2Proof.Machine

/-! ### The parameters -/

@[simp] theorem params_subEqFlag : params.subEqFlag = 0 := rfl
@[simp] theorem params_lostLatch : params.lostLatch = .hold := rfl
@[simp] theorem params_drawN0 : params.drawN0 = .nop := rfl
@[simp] theorem params_keyOor : params.keyOor = .free := rfl

/-! ### Single accesses -/

theorem memRead_ok {a : Nat} {s : State} (h : a < 4096) : memRead a s = .ok (byteAt s a) := by
  simp [memRead, h]

theorem memRead_error {a : Nat} {s : State} (h : 4096 ≤ a) : memRead a s = .error (.memoryOutOfBounds a s) := by
  simp [memRead, Nat.not_lt.mpr h]

/-- The state after one byte is written. -/
theorem memWrite_next {a : Nat} {b : Byte} {s : State} (h : a < 4096) :
    memWrite a b s = .next { s with mem := Memory.write s.mem a b } := by
  simp [memWrite, h]

theorem memWrite_fault {a : Nat} {b : Byte} {s : State} (h : 4096 ≤ a) :
    memWrite a b s = .fault (.memoryOutOfBounds a s) := by
  simp [memWrite, raise, Nat.not_lt.mpr h]

theorem memReadWord_ok {a : Nat} {s : State} (h : a < 4095) :
    memReadWord a s = .ok (wordOfBytes (byteAt s a) (byteAt s (a + 1))) := by
  simp [memReadWord, memRead_ok (show a < 4096 by omega), memRead_ok (show a + 1 < 4096 by omega)]

theorem memReadWord_error {a : Nat} {s : State} (h : 4095 ≤ a) :
    memReadWord a s = .error (.memoryOutOfBounds (max a 4096) s) := by
  rcases Nat.lt_or_ge a 4096 with h1 | h1
  · obtain rfl : a = 4095 := by omega
    simp [memReadWord, memRead_ok h1, memRead_error (a := 4096) (Nat.le_refl _)]
  · simp [memReadWord, memRead_error h1, Nat.max_eq_left h1]

/-! ### Byte sequences -/

theorem readBytes_ok {a n : Nat} {s : State} (h : a + n ≤ 4096) : readBytes a n s = .ok (bytesFrom s a n) := by
  induction n generalizing a with
  | zero => rfl
  | succ n ih =>
    simp only [readBytes, memRead_ok (show a < 4096 by omega), ih (show a + 1 + n ≤ 4096 by omega)]
    simp [bytesFrom, List.range_succ_eq_map, Nat.add_comm, Nat.add_left_comm]

theorem readBytes_error {a n : Nat} {s : State} (h : 4096 < a + n) (hn : 0 < n) :
    readBytes a n s = .error (.memoryOutOfBounds (max a 4096) s) := by
  induction n generalizing a with
  | zero => omega
  | succ n ih =>
    rcases Nat.lt_or_ge a 4096 with h1 | h1
    · simp only [readBytes, memRead_ok h1, ih (show 4096 < a + 1 + n by omega) (by omega)]
      simp [Nat.max_eq_right (show a + 1 ≤ 4096 by omega), Nat.max_eq_right (show a ≤ 4096 by omega)]
    · simp [readBytes, memRead_error h1, Nat.max_eq_left h1]

/-- The memory after a byte sequence is written from `a` on, no bound checked. -/
def putBytes : Nat → List Byte → Memory → Memory
  | _, [], m => m
  | a, b :: bs, m => putBytes (a + 1) bs (Memory.write m a b)

theorem storeBytes_next {a : Nat} {bs : List Byte} {s : State} (h : a + bs.length ≤ 4096) :
    storeBytes a bs s = .next { s with mem := putBytes a bs s.mem } := by
  induction bs generalizing a s with
  | nil => rfl
  | cons b bs ih =>
    simp only [List.length_cons] at h
    rw [storeBytes, memWrite_next (by omega), andThen, ih (by omega)]
    rfl

/-- R73: at the first byte out of range the store stops; the bytes before it are written. -/
theorem storeBytes_fault {a : Nat} {bs : List Byte} {s : State} (h : 4096 < a + bs.length) (hb : bs ≠ []) :
    storeBytes a bs s =
      .fault (.memoryOutOfBounds (max a 4096) { s with mem := putBytes a (bs.take (4096 - a)) s.mem }) := by
  induction bs generalizing a s with
  | nil => exact absurd rfl hb
  | cons b bs ih =>
    simp only [List.length_cons] at h
    rcases Nat.lt_or_ge a 4096 with h1 | h1
    · have hbs : bs ≠ [] := by intro e; subst e; simp at h; omega
      rw [storeBytes, memWrite_next h1, andThen, ih (by omega) hbs]
      have h2 : 4096 - a = (4096 - (a + 1)) + 1 := by omega
      rw [h2, List.take_succ_cons, Nat.max_eq_right (by omega), Nat.max_eq_right (by omega)]
      rfl
    · rw [storeBytes, memWrite_fault h1, andThen, Nat.sub_eq_zero_of_le h1, Nat.max_eq_left h1]
      rfl

theorem Memory.wf_putBytes {a : Nat} {bs : List Byte} {m : Memory} (h : Memory.wf m = true)
    (hb : a + bs.length ≤ 4096) : Memory.wf (putBytes a bs m) = true := by
  induction bs generalizing a m with
  | nil => exact h
  | cons b bs ih =>
    simp only [List.length_cons] at hb
    exact ih (Memory.wf_write h (by simp only [Config.memSize]; omega)) (by omega)

/-- R73: the `k`-th byte lies at `a + k`; every other address reads as before. -/
theorem read_putBytes {a : Nat} {bs : List Byte} {m : Memory} (h : Memory.wf m = true) (hb : a + bs.length ≤ 4096)
    (p : Nat) :
    Memory.read (putBytes a bs m) p = if a ≤ p then (bs[p - a]?).getD (Memory.read m p) else Memory.read m p := by
  induction bs generalizing a m with
  | nil => simp [putBytes]
  | cons b bs ih =>
    simp only [List.length_cons] at hb
    rw [putBytes, ih (Memory.wf_write h (by simp only [Config.memSize]; omega)) (by omega), Memory.read_write h]
    rcases Nat.lt_trichotomy p a with h1 | h1 | h1
    · simp [show ¬a + 1 ≤ p by omega, show ¬a ≤ p by omega, show p ≠ a by omega]
    · subst h1; simp
    · have h2 : p - a = (p - (a + 1)) + 1 := by omega
      simp [show a + 1 ≤ p by omega, show a ≤ p by omega, show p ≠ a by omega, h2]

/-- The registers after a load sequence, no bound checked. -/
def getBytes : Nat → List Reg → State → State
  | _, [], s => s
  | a, r :: rs, s => getBytes (a + 1) rs (writeV r (byteAt s a) s)

theorem loadBytes_next {a : Nat} {rs : List Reg} {s : State} (h : a + rs.length ≤ 4096) :
    loadBytes a rs s = .next (getBytes a rs s) := by
  induction rs generalizing a s with
  | nil => rfl
  | cons r rs ih =>
    simp only [List.length_cons] at h
    simp only [loadBytes, memRead_ok (show a < 4096 by omega), getBytes]
    exact ih (by omega)

/-- R73: at the first byte out of range the load stops; the registers before it are loaded. -/
theorem loadBytes_fault {a : Nat} {rs : List Reg} {s : State} (h : 4096 < a + rs.length) (hr : rs ≠ []) :
    loadBytes a rs s = .fault (.memoryOutOfBounds (max a 4096) (getBytes a (rs.take (4096 - a)) s)) := by
  induction rs generalizing a s with
  | nil => exact absurd rfl hr
  | cons r rs ih =>
    simp only [List.length_cons] at h
    rcases Nat.lt_or_ge a 4096 with h1 | h1
    · have hrs : rs ≠ [] := by intro e; subst e; simp at h; omega
      have h2 : 4096 - a = (4096 - (a + 1)) + 1 := by omega
      simp only [loadBytes, memRead_ok h1]
      rw [ih (by omega) hrs, h2, List.take_succ_cons, Nat.max_eq_right (by omega), Nat.max_eq_right (by omega)]
      rfl
    · simp only [loadBytes, memRead_error h1, Nat.sub_eq_zero_of_le h1, Nat.max_eq_left h1, List.take_zero, getBytes]

/-- A load sequence writes general registers only. -/
theorem getBytes_frame (a : Nat) (rs : List Reg) (s : State) : ∃ v, getBytes a rs s = { s with v := v } := by
  induction rs generalizing a s with
  | nil => exact ⟨s.v, rfl⟩
  | cons r rs ih =>
    obtain ⟨v, hv⟩ := ih (a + 1) (writeV r (byteAt s a) s)
    exact ⟨v, hv⟩

/-- Each register of the list holds the byte at its place in the list; the others are as before. -/
theorem readV_getBytes {a : Nat} {rs : List Reg} {s : State} (hn : rs.Nodup) (q : Reg) :
    readV (getBytes a rs s) q = if q ∈ rs then byteAt s (a + rs.idxOf q) else readV s q := by
  induction rs generalizing a s with
  | nil => simp [getBytes]
  | cons r rs ih =>
    rw [List.nodup_cons] at hn
    rw [getBytes, ih hn.2]
    by_cases h : q ∈ rs
    · have hr : (r == q) = false := by simpa using fun e : r = q => hn.1 (e ▸ h)
      rw [if_pos h, if_pos (List.mem_cons_of_mem r h), List.idxOf_cons, hr, cond_false, Nat.add_right_comm, Nat.add_assoc]
      rfl
    · by_cases h2 : q = r
      · subst h2; simp [h, readV_writeV]
      · simp [h, h2, readV_writeV]

theorem regsUpTo_length (x : Reg) : (regsUpTo x).length = x.val + 1 := by
  have := x.isLt
  simp [regsUpTo]

theorem mem_regsUpTo : ∀ x k : Reg, k ∈ regsUpTo x ↔ k ≤ x := by decide

theorem regsUpTo_nodup : ∀ x : Reg, (regsUpTo x).Nodup := by decide

/-- Register `V[k]` stands at place `k`. -/
theorem idxOf_regsUpTo : ∀ x k : Reg, k ≤ x → (regsUpTo x).idxOf k = k.val := by decide

/-! ### Stack, skips, keys -/

theorem push_next {a : Word} {s : State} (h : s.sp.val < 16) :
    push a s = .next { s with stack := s.stack.set s.sp.val a h, sp := ⟨s.sp.val + 1, by omega⟩ } := by
  simp [push, h]

theorem push_fault {a : Word} {s : State} (h : s.sp.val = 16) : push a s = .fault (.stackOverflow s) := by
  simp [push, raise, h]

theorem popToPc_next {s : State} (h : s.sp.val ≠ 0) :
    popToPc s = .next { s with sp := ⟨s.sp.val - 1, by omega⟩, pc := s.stack[s.sp.val - 1]'(by omega) } := by
  simp [popToPc, h]

theorem popToPc_fault {s : State} (h : s.sp.val = 0) : popToPc s = .fault (.stackEmpty s) := by
  simp [popToPc, raise, h]

theorem skipIf_pc (c : Bool) (s : State) : (skipIf c s).pc = if c then s.pc + 2 else s.pc := by
  cases c <;> rfl

/-- A skip changes `pc` and nothing else. -/
theorem skipIf_eq_setPc (c : Bool) (s : State) : skipIf c s = setPc (if c then s.pc + 2 else s.pc) s := by
  cases c <;> rfl

/-- R40: the scan finds the down key of the lowest index. -/
theorem lowestKeyDown_some {s : State} {k : Key} (h : lowestKeyDown s = some k) :
    s.key[k] = true ∧ ∀ j : Key, j < k → s.key[j] = false := by
  rw [lowestKeyDown, List.find?_eq_some_iff_getElem] at h
  obtain ⟨h1, n, hn, h2, h3⟩ := h
  simp only [List.getElem_finRange] at h2
  refine ⟨h1, fun j hj => ?_⟩
  have hj' : j.val < n := by
    rw [← h2] at hj
    simpa [Fin.lt_def] using hj
  simpa using h3 j.val hj'

/-- R40: the scan finds none exactly when no key is down. -/
theorem lowestKeyDown_none {s : State} : lowestKeyDown s = none ↔ ∀ k : Key, s.key[k] = false := by
  simp [lowestKeyDown, List.find?_eq_none]

/-- A key skip reads the key its register names, whatever `KEY_OOR`. -/
theorem testKey_named {oor : Config.KeyOor} {b : Byte} {s : State} {go : Bool → State → Result} (h : b.toNat < 16) :
    testKey oor b s go = go s.key[b.toNat] s := by
  simp [testKey, h]

/-- A value above 15 names no key: a free value is read. -/
theorem testKey_unnamed {b : Byte} {s : State} {go : Bool → State → Result} (h : 16 ≤ b.toNat) :
    testKey params.keyOor b s go = go (Config.freeKeyState b s.key s.draws) (countDraw s) := by
  simp [testKey, Nat.not_lt.mpr h]

/-- Whatever is read, the instruction goes on, and the reading changes at most the count of free values. -/
theorem testKey_cases (b : Byte) (s : State) (go : Bool → State → Result) :
    ∃ down t, (t = s ∨ t = countDraw s) ∧ testKey params.keyOor b s go = go down t := by
  rcases Nat.lt_or_ge b.toNat 16 with h | h
  · exact ⟨_, _, .inl rfl, testKey_named h⟩
  · exact ⟨_, _, .inr rfl, testKey_unnamed h⟩

/-- R152: a reading of the random input changes only the supply of inputs. -/
theorem nextRandom_state (s : State) :
    (∃ b rest, s.rndIn = b :: rest ∧ nextRandom s = (b, { s with rndIn := rest })) ∨
      (s.rndIn = [] ∧ nextRandom s = (Config.freeRandom s.draws, countDraw s)) := by
  unfold nextRandom
  cases h : s.rndIn with
  | nil => exact .inr ⟨rfl, rfl⟩
  | cons b rest => exact .inl ⟨b, rest, rfl, rfl⟩

/-- R200: ticks are applied one after another. -/
theorem ticks_succ (n : Nat) (s : State) : ticks (n + 1) s = ticks n (tick s) := rfl

/-! ### The host's moves -/

theorem nextMove_pending {s : State} {m : HostMove} {rest : List HostMove} (h : s.host = m :: rest) :
    nextMove s = (m, { s with host := rest }) := by
  simp [nextMove, h]

theorem nextMove_none {s : State} (h : s.host = []) :
    nextMove s = (.advance (Config.freeTicks s.draws), countDraw s) := by
  simp [nextMove, h]

end Sys2Proof.Machine
end

