-- ==== Sys2Proof/Laws/HostOps.lean ====
section
/-! SUPPORT. What each operation of the host can do: load with its two outcomes, the zeroing of memory, and the placing of an
opcode. -/

namespace Sys2Proof.Machine

/-- R244: an image that fits. -/
theorem load_next {image : List Byte} {s : State} (h : image.length ≤ 3584) :
    load image s = .next { s with mem := putBytes 0x200 image s.mem, plen := image.length } := by
  have h1 : Config.programOrigin + image.length ≤ 4096 := by show 512 + image.length ≤ 4096; omega
  simp only [load, storeBytes_next h1]

/-- R244: an image that does not fit. -/
theorem load_fault {image : List Byte} {s : State} (h : 3584 < image.length) :
    load image s =
      .fault (.memoryOutOfBounds 4096 (plenUnknown { s with mem := putBytes 0x200 (image.take 3584) s.mem })) := by
  have h1 : 4096 < Config.programOrigin + image.length := by show 4096 < 512 + image.length; omega
  have h2 : image ≠ [] := by intro e; subst e; simp at h
  simp only [load, storeBytes_fault h1 h2, raise]
  rfl

/-- R67: the zeroed range reads 0, the rest as before. -/
theorem byteAt_zeroFrom {s : State} (hw : Memory.wf s.mem = true) {low : Nat} (hl : low ≤ 4096) (a : Nat) :
    byteAt (zeroFrom low s) a = if low ≤ a ∧ a < 4096 then 0 else byteAt s a := by
  have h : low + (4096 - low) = 4096 := by omega
  have hz := Memory.read_zero hw (low := low) (count := 4096 - low) (by rw [h]) a
  rw [h] at hz
  exact hz

/-- R241: what the three resets leave, whatever the state before. -/
theorem afterReset_resets (s : State) : afterReset (inputReset (displayReset (cpuReset s))) :=
  ⟨rfl, fun r => by simp [readV, inputReset, displayReset, setDisplay, cpuReset], rfl, rfl, rfl, rfl,
    fun j => by simp [inputReset, displayReset, setDisplay, cpuReset], rfl, fun r c _ _ => testPixel_blank r c, rfl,
    fun k => by simp [inputReset]⟩

/-- The zeroing of memory touches nothing of what the resets leave. -/
theorem afterReset_zeroFrom {s : State} {low : Nat} : afterReset (zeroFrom low s) ↔ afterReset s := Iff.rfl

/-- The place where the next opcode can be stored is one a fetch can read. -/
theorem fetchPlace_lt (s : State) : (fetchPlace s).toNat < 4095 := by
  unfold fetchPlace
  split_ifs with h
  · exact h
  · decide

/-- After an opcode is placed, the first pending move, if any, is an advance. -/
theorem skipToAdvance_cases (l : List HostMove) :
    skipToAdvance l = [] ∨ ∃ n rest, skipToAdvance l = .advance n :: rest := by
  induction l with
  | nil => exact .inl rfl
  | cons m rest ih => cases m <;> first | exact ih | exact .inr ⟨_, _, rfl⟩

end Sys2Proof.Machine
end

