-- ==== Sys2Proof/Laws/PerInstr.lean ====
section
/-! SUPPORT. The per-instruction family: the leading nibble of every encoded instruction is the one that 30_encoding.md R95
gives its row, whatever the operands. -/

namespace Sys2Proof.Laws

/-- The leading nibble of an instruction's row in R95. -/
def leadNibble : Instr → BitVec 4
  | .clearScreen => 0x0
  | .ret => 0x0
  | .jump _ => 0x1
  | .call _ => 0x2
  | .skipEqImm _ _ => 0x3
  | .skipNeImm _ _ => 0x4
  | .skipEqReg _ _ => 0x5
  | .loadImm _ _ => 0x6
  | .addImm _ _ => 0x7
  | .set _ _ => 0x8
  | .or _ _ => 0x8
  | .and _ _ => 0x8
  | .xor _ _ => 0x8
  | .add _ _ => 0x8
  | .sub _ _ => 0x8
  | .shr _ _ => 0x8
  | .subn _ _ => 0x8
  | .shl _ _ => 0x8
  | .skipNeReg _ _ => 0x9
  | .setIndex _ => 0xA
  | .jumpOffset _ => 0xB
  | .random _ _ => 0xC
  | .draw _ _ _ => 0xD
  | .skipIfKey _ => 0xE
  | .skipIfNotKey _ => 0xE
  | .loadDelay _ => 0xF
  | .waitKey _ => 0xF
  | .setDelay _ => 0xF
  | .setSound _ => 0xF
  | .addIndex _ => 0xF
  | .loadFontAddr _ => 0xF
  | .storeBcd _ => 0xF
  | .storeRegs _ => 0xF
  | .loadRegs _ => 0xF

/-- The family's statement: the leading nibble of the encoded word is the row's. -/
def LeadingNibble.Statement (i : Instr) : Prop := fieldLead (encode i) = leadNibble i

theorem LeadingNibble.clearScreen : LeadingNibble.Statement .clearScreen := by unfold LeadingNibble.Statement; decide
theorem LeadingNibble.ret : LeadingNibble.Statement .ret := by unfold LeadingNibble.Statement; decide
theorem LeadingNibble.jump (nnn : Word) : LeadingNibble.Statement (.jump nnn) := fieldLead_formatA (by decide) _
theorem LeadingNibble.call (nnn : Word) : LeadingNibble.Statement (.call nnn) := fieldLead_formatA (by decide) _
theorem LeadingNibble.skipEqImm (x : Reg) (nn : Byte) : LeadingNibble.Statement (.skipEqImm x nn) := fieldLead_formatXI (by decide) _ _
theorem LeadingNibble.skipNeImm (x : Reg) (nn : Byte) : LeadingNibble.Statement (.skipNeImm x nn) := fieldLead_formatXI (by decide) _ _
theorem LeadingNibble.skipEqReg (x y : Reg) : LeadingNibble.Statement (.skipEqReg x y) := fieldLead_formatXY (by decide) _ _ _
theorem LeadingNibble.loadImm (x : Reg) (nn : Byte) : LeadingNibble.Statement (.loadImm x nn) := fieldLead_formatXI (by decide) _ _
theorem LeadingNibble.addImm (x : Reg) (nn : Byte) : LeadingNibble.Statement (.addImm x nn) := fieldLead_formatXI (by decide) _ _
theorem LeadingNibble.set (x y : Reg) : LeadingNibble.Statement (.set x y) := fieldLead_formatXY (by decide) _ _ _
theorem LeadingNibble.or (x y : Reg) : LeadingNibble.Statement (.or x y) := fieldLead_formatXY (by decide) _ _ _
theorem LeadingNibble.and (x y : Reg) : LeadingNibble.Statement (.and x y) := fieldLead_formatXY (by decide) _ _ _
theorem LeadingNibble.xor (x y : Reg) : LeadingNibble.Statement (.xor x y) := fieldLead_formatXY (by decide) _ _ _
theorem LeadingNibble.add (x y : Reg) : LeadingNibble.Statement (.add x y) := fieldLead_formatXY (by decide) _ _ _
theorem LeadingNibble.sub (x y : Reg) : LeadingNibble.Statement (.sub x y) := fieldLead_formatXY (by decide) _ _ _
theorem LeadingNibble.shr (x y : Reg) : LeadingNibble.Statement (.shr x y) := fieldLead_formatXY (by decide) _ _ _
theorem LeadingNibble.subn (x y : Reg) : LeadingNibble.Statement (.subn x y) := fieldLead_formatXY (by decide) _ _ _
theorem LeadingNibble.shl (x y : Reg) : LeadingNibble.Statement (.shl x y) := fieldLead_formatXY (by decide) _ _ _
theorem LeadingNibble.skipNeReg (x y : Reg) : LeadingNibble.Statement (.skipNeReg x y) := fieldLead_formatXY (by decide) _ _ _
theorem LeadingNibble.setIndex (nnn : Word) : LeadingNibble.Statement (.setIndex nnn) := fieldLead_formatA (by decide) _
theorem LeadingNibble.jumpOffset (nnn : Word) : LeadingNibble.Statement (.jumpOffset nnn) := fieldLead_formatA (by decide) _
theorem LeadingNibble.random (x : Reg) (nn : Byte) : LeadingNibble.Statement (.random x nn) := fieldLead_formatXI (by decide) _ _
theorem LeadingNibble.draw (x y : Reg) (n : Nat) : LeadingNibble.Statement (.draw x y n) := fieldLead_formatXY (by decide) _ _ _
theorem LeadingNibble.skipIfKey (x : Reg) : LeadingNibble.Statement (.skipIfKey x) := fieldLead_formatX (by decide) _ _
theorem LeadingNibble.skipIfNotKey (x : Reg) : LeadingNibble.Statement (.skipIfNotKey x) := fieldLead_formatX (by decide) _ _
theorem LeadingNibble.loadDelay (x : Reg) : LeadingNibble.Statement (.loadDelay x) := fieldLead_formatX (by decide) _ _
theorem LeadingNibble.waitKey (x : Reg) : LeadingNibble.Statement (.waitKey x) := fieldLead_formatX (by decide) _ _
theorem LeadingNibble.setDelay (x : Reg) : LeadingNibble.Statement (.setDelay x) := fieldLead_formatX (by decide) _ _
theorem LeadingNibble.setSound (x : Reg) : LeadingNibble.Statement (.setSound x) := fieldLead_formatX (by decide) _ _
theorem LeadingNibble.addIndex (x : Reg) : LeadingNibble.Statement (.addIndex x) := fieldLead_formatX (by decide) _ _
theorem LeadingNibble.loadFontAddr (x : Reg) : LeadingNibble.Statement (.loadFontAddr x) := fieldLead_formatX (by decide) _ _
theorem LeadingNibble.storeBcd (x : Reg) : LeadingNibble.Statement (.storeBcd x) := fieldLead_formatX (by decide) _ _
theorem LeadingNibble.storeRegs (x : Reg) : LeadingNibble.Statement (.storeRegs x) := fieldLead_formatX (by decide) _ _
theorem LeadingNibble.loadRegs (x : Reg) : LeadingNibble.Statement (.loadRegs x) := fieldLead_formatX (by decide) _ _

end Sys2Proof.Laws
end

