-- ==== Sys2Proof/Tests/Slice0.lean ====
section
/-! SUPPORT. The model's own tests. Words are written out from the table of 30_encoding.md R95; expected results come from
95_test_vectors.md, whose table (T1 to T9) or example (S1 to S10) each test names. After them, one witness for every
obligation with hypotheses: a concrete state and operands that meet them, for each clause. -/

namespace Sys2Proof.Machine

/-! ### Helpers -/

/-- A part of the next state. -/
def nextOf {α : Type} (f : State → α) : Result → Option α
  | .next s => some (f s)
  | _ => none

/-- A part of the state an error leaves. -/
def faultOf {α : Type} (f : State → α) : Result → Option α
  | .fault r => some (f (Fault.left r))
  | _ => none

/-- The error without the state it leaves: its name, and the address or opcode it carries. -/
def errorOf : Result → Option (String × Nat)
  | .fault (.memoryOutOfBounds a _) => some ("MemoryOutOfBounds", a)
  | .fault (.unknownInstruction op _) => some ("UnknownInstruction", op.toNat)
  | .fault (.stackEmpty _) => some ("StackEmpty", 0)
  | .fault (.stackOverflow _) => some ("StackOverflow", 0)
  | .fault (.keyOutOfRange b _) => some ("KeyOutOfRange", b.toNat)
  | _ => none

/-- One step on a word stored at `pc`, with the given ticks. -/
def stepWord (op : Nat) (s : State) (n : Nat := 0) : Result :=
  step ({ s with host := [.advance n] }.withFetchWord 16 op)

/-- Reset with some registers set, the first of the list last. -/
def withV (l : List (Reg × Byte)) (s : State := State.reset) : State := l.foldr (fun p s => writeV p.1 p.2 s) s

/-- Reset with some bytes of memory set. -/
def withBytes (a : Nat) (bs : List Byte) (s : State := State.reset) : State :=
  { s with mem := (List.range bs.length).foldl (fun m k => Memory.write m (a + k) (bs[k]?.getD 0)) s.mem }

/-- Reset with some keys down. -/
def withKeys (ks : List Key) (s : State := State.reset) : State :=
  { s with key := ks.foldl (fun v k => v.set k.val true k.isLt) s.key }

/-- Reset with one pixel on. -/
def withPixel (r c : Nat) (s : State := State.reset) : State := { s with disp := plotPixel s.disp r c true }

/-! ### Well-formedness: each check refuses a term -/

theorem test_wellFormed_jump : wellFormed (.jump 0x1000) = false ∧ wellFormed (.jump 0x0FFF) = true := by decide
theorem test_wellFormed_call : wellFormed (.call 0x1000) = false ∧ wellFormed (.call 0x0FFF) = true := by decide
theorem test_wellFormed_setIndex : wellFormed (.setIndex 0xFFFF) = false := by decide
theorem test_wellFormed_jumpOffset : wellFormed (.jumpOffset 0x1000) = false := by decide
theorem test_wellFormed_draw : wellFormed (.draw 1 2 16) = false ∧ wellFormed (.draw 1 2 15) = true := by decide

/-! ### Decoding: one word of every row, written out from R95 -/

theorem test_decode_control :
    decode 0x00E0 = .ok .clearScreen ∧ decode 0x00EE = .ok .ret ∧ decode 0x1ABC = .ok (.jump 0xABC) ∧
    decode 0x2DEF = .ok (.call 0xDEF) ∧ decode 0xB123 = .ok (.jumpOffset 0x123) := by decide
theorem test_decode_skips :
    decode 0x3A7F = .ok (.skipEqImm 10 0x7F) ∧ decode 0x4B80 = .ok (.skipNeImm 11 0x80) ∧
    decode 0x5AB0 = .ok (.skipEqReg 10 11) ∧ decode 0x9BA0 = .ok (.skipNeReg 11 10) := by decide
theorem test_decode_immediates :
    decode 0x6C12 = .ok (.loadImm 12 0x12) ∧ decode 0x7DFE = .ok (.addImm 13 0xFE) ∧
    decode 0xC30F = .ok (.random 3 0x0F) := by decide
theorem test_decode_family8 :
    decode 0x8AB0 = .ok (.set 10 11) ∧ decode 0x8AB1 = .ok (.or 10 11) ∧ decode 0x8AB2 = .ok (.and 10 11) ∧
    decode 0x8AB3 = .ok (.xor 10 11) ∧ decode 0x8AB4 = .ok (.add 10 11) ∧ decode 0x8AB5 = .ok (.sub 10 11) ∧
    decode 0x8AB6 = .ok (.shr 10 11) ∧ decode 0x8AB7 = .ok (.subn 10 11) ∧ decode 0x8ABE = .ok (.shl 10 11) := by decide
theorem test_decode_index_draw :
    decode 0xA9F8 = .ok (.setIndex 0x9F8) ∧ decode 0xD125 = .ok (.draw 1 2 5) := by decide
theorem test_decode_familyE : decode 0xE19E = .ok (.skipIfKey 1) ∧ decode 0xE2A1 = .ok (.skipIfNotKey 2) := by decide
theorem test_decode_familyF :
    decode 0xF107 = .ok (.loadDelay 1) ∧ decode 0xF20A = .ok (.waitKey 2) ∧ decode 0xF315 = .ok (.setDelay 3) ∧
    decode 0xF418 = .ok (.setSound 4) ∧ decode 0xF31E = .ok (.addIndex 3) ∧ decode 0xF629 = .ok (.loadFontAddr 6) ∧
    decode 0xF733 = .ok (.storeBcd 7) ∧ decode 0xF855 = .ok (.storeRegs 8) ∧ decode 0xFE65 = .ok (.loadRegs 14) := by
  decide
/-- The unknown words of T1. -/
theorem test_decode_unknown :
    ([0x0000, 0x00E1, 0x0123, 0x5001, 0x8128, 0x812F, 0x9121, 0xE19F, 0xE000, 0xF100, 0xF156, 0xFFFF] : List Word).all
      (fun op => decide (decode op = .error (.unknownInstruction op))) = true := by decide
theorem test_decode_bytes :
    decodeBytes [0x8A, 0xB6, 0x01] = .ok (.shr 10 11, [0x01]) ∧ decodeBytes [0x8A] = .error .truncated := by decide
theorem test_decodeTableWord :
    decodeTableWord 16 0x8AB6 = some (.shr 10 11) ∧ decodeTableWord 16 0x5AB1 = none := by decide
/-- The step runs a placed word from reset, with no move of the host pending. -/
theorem test_step_from_reset : nextOf (fun s => (s.pc, readV s 10)) (step (State.reset.withFetchWord 16 0x6A2B)) =
    some (0x202, 0x2B) := by decide

/-! ### Control transfer (T2) -/

theorem test_jump_self_loop : nextOf (·.pc) (stepWord 0x1200 State.reset) = some 0x200 := by decide
theorem test_jump_last_address : nextOf (·.pc) (stepWord 0x1FFF State.reset) = some 0xFFF := by decide
theorem test_call : nextOf (fun s => (s.pc, s.sp, s.stack[0])) (stepWord 0x2210 State.reset) =
    some (0x210, 1, 0x202) := by decide
theorem test_call_overflow : errorOf (stepWord 0x2300 { State.reset with sp := 16 }) = some ("StackOverflow", 0) ∧
    faultOf (fun s => (s.pc, s.sp)) (stepWord 0x2300 { State.reset with sp := 16 }) = some (0x202, 16) := by decide
theorem test_return : nextOf (fun s => (s.pc, s.sp)) (stepWord 0x00EE
    { State.reset with pc := 0x212, sp := 1, stack := State.reset.stack.set 0 0x206 }) = some (0x206, 0) := by decide
theorem test_return_empty : errorOf (stepWord 0x00EE State.reset) = some ("StackEmpty", 0) ∧
    faultOf (fun s => (s.pc, s.sp)) (stepWord 0x00EE State.reset) = some (0x202, 0) := by decide
theorem test_jump_offset : nextOf (·.pc) (stepWord 0xB300 (withV [(0, 0x04)])) = some 0x304 := by decide
theorem test_jump_offset_past_memory : nextOf (·.pc) (stepWord 0xBFFF (withV [(0, 0xFF)])) = some 0x10FE := by decide
theorem test_skip_eq_imm : nextOf (·.pc) (stepWord 0x3000 { State.reset with pc := 0x208 }) = some 0x20C ∧
    nextOf (·.pc) (stepWord 0x3000 (withV [(0, 1)] { State.reset with pc := 0x208 })) = some 0x20A := by decide
theorem test_skip_ne_imm : nextOf (·.pc) (stepWord 0x4A05 (withV [(10, 5)] { State.reset with pc := 0x300 })) = some 0x302 ∧
    nextOf (·.pc) (stepWord 0x4A05 (withV [(10, 6)] { State.reset with pc := 0x300 })) = some 0x304 := by decide
theorem test_skip_eq_reg : nextOf (·.pc) (stepWord 0x5120 (withV [(1, 0x7F), (2, 0x7F)])) = some 0x204 ∧
    nextOf (·.pc) (stepWord 0x5120 (withV [(1, 0x7F), (2, 0x80)])) = some 0x202 := by decide
theorem test_skip_ne_reg : nextOf (·.pc) (stepWord 0x9120 (withV [(1, 1), (2, 2)])) = some 0x204 ∧
    nextOf (·.pc) (stepWord 0x9330 (withV [(3, 9)])) = some 0x202 := by decide
/-- A skip off the end of memory; the next fetch fails. -/
theorem test_skip_past_memory : nextOf (·.pc) (stepWord 0x3000 { State.reset with pc := 0xFFE }) = some 0x1002 ∧
    errorOf (advance 0 { State.reset with pc := 0x1002 }) = some ("MemoryOutOfBounds", 0x1002) := by decide

/-! ### Registers and flags (T3) -/

theorem test_load_imm : nextOf (fun s => readV s 15) (stepWord 0x6F07 State.reset) = some 0x07 := by decide
theorem test_add_imm : nextOf (fun s => (readV s 0, readV s 15)) (stepWord 0x7002 (withV [(0, 0xFF), (15, 0x55)])) =
    some (0x01, 0x55) := by decide
theorem test_set : nextOf (fun s => (readV s 0, readV s 15)) (stepWord 0x8010 (withV [(0, 0x12), (1, 0x99), (15, 1)])) =
    some (0x99, 1) := by decide
theorem test_or : nextOf (fun s => (readV s 0, readV s 15)) (stepWord 0x8011 (withV [(0, 0x0F), (1, 0xF0), (15, 1)])) =
    some (0xFF, 0) := by decide
theorem test_and : nextOf (fun s => (readV s 0, readV s 15)) (stepWord 0x8012 (withV [(0, 0x3C), (1, 0x0F), (15, 1)])) =
    some (0x0C, 0) := by decide
theorem test_xor : nextOf (fun s => (readV s 0, readV s 15)) (stepWord 0x8013 (withV [(0, 0xFF), (1, 0x0F), (15, 1)])) =
    some (0xF0, 0) := by decide
theorem test_add : nextOf (fun s => (readV s 0, readV s 15)) (stepWord 0x8014 (withV [(0, 0xF0), (1, 0x20)])) =
    some (0x10, 1) := by decide
theorem test_add_flag_is_destination : nextOf (fun s => readV s 15) (stepWord 0x8F14 (withV [(15, 0x01), (1, 0x02)])) =
    some 0 := by decide
theorem test_sub : nextOf (fun s => (readV s 0, readV s 15)) (stepWord 0x8015 (withV [(0, 0x01), (1, 0x02), (15, 1)])) =
    some (0xFF, 0) := by decide
theorem test_sub_equal : nextOf (fun s => (readV s 0, readV s 15)) (stepWord 0x8015 (withV [(0, 0x33), (1, 0x33), (15, 1)])) =
    some (0x00, 0) := by decide
theorem test_subn : nextOf (fun s => (readV s 0, readV s 15)) (stepWord 0x8017 (withV [(0, 0x01), (1, 0x10)])) =
    some (0x0F, 1) := by decide
theorem test_subn_borrow : nextOf (fun s => (readV s 0, readV s 15))
    (stepWord 0x8017 (withV [(0, 0x10), (1, 0x01), (15, 1)])) = some (0xF1, 0) := by decide
/-- S5. -/
theorem test_shr : nextOf (fun s => (readV s 1, readV s 2, readV s 15)) (stepWord 0x8126 (withV [(2, 0x81)])) =
    some (0x40, 0x81, 1) := by decide
theorem test_shl : nextOf (fun s => (readV s 0, readV s 15)) (stepWord 0x801E (withV [(1, 0x40), (15, 1)])) =
    some (0x80, 0) := by decide
theorem test_random : nextOf (fun s => (readV s 0, s.rndIn)) (stepWord 0xC00F { State.reset with rndIn := [0xA7, 0x11] }) =
    some (0x07, [0x11]) := by decide
theorem test_random_mask_zero : nextOf (fun s => readV s 0) (stepWord 0xC000
    (withV [(0, 0x99)] { State.reset with rndIn := [0xA7] })) = some 0 := by decide

/-! ### Index register and memory (T4) -/

theorem test_set_index : nextOf (·.i) (stepWord 0xA300 State.reset) = some 0x300 := by decide
theorem test_add_index : nextOf (fun s => (s.i, readV s 15)) (stepWord 0xF01E (withV [(0, 1)] { State.reset with i := 0xFFFF })) =
    some (0x0000, 0) := by decide
theorem test_load_font_addr : nextOf (·.i) (stepWord 0xF329 (withV [(3, 0x0A)])) = some 0x32 ∧
    nextOf (·.i) (stepWord 0xF329 (withV [(3, 0xFF)])) = some 0x4FB := by decide
theorem test_store_bcd : nextOf (fun s => (byteAt s 0xFFD, byteAt s 0xFFE, byteAt s 0xFFF, s.i))
    (stepWord 0xF033 (withV [(0, 0xFE)] { State.reset with i := 0xFFD })) = some (2, 5, 4, 0xFFD) := by decide
theorem test_store_bcd_out : errorOf (stepWord 0xF033 (withV [(0, 0xFE)] { State.reset with i := 0xFFE })) =
      some ("MemoryOutOfBounds", 0x1000) ∧
    faultOf (fun s => (byteAt s 0xFFE, byteAt s 0xFFF, s.i, s.pc))
      (stepWord 0xF033 (withV [(0, 0xFE)] { State.reset with i := 0xFFE })) = some (2, 5, 0xFFE, 0x202) := by decide
theorem test_store_regs : nextOf (fun s => (byteAt s 0x400, byteAt s 0x401, byteAt s 0x402, s.i))
    (stepWord 0xF255 (withV [(0, 0x11), (1, 0x22), (2, 0x33)] { State.reset with i := 0x400 })) =
    some (0x11, 0x22, 0x33, 0x403) := by decide
theorem test_store_regs_out : faultOf (fun s => (byteAt s 0xFFE, byteAt s 0xFFF, s.i))
    (stepWord 0xF355 (withV [(0, 0x11), (1, 0x22), (2, 0x33), (3, 0x44)] { State.reset with i := 0xFFE })) =
    some (0x11, 0x22, 0xFFE) := by decide
theorem test_load_regs : nextOf (fun s => (readV s 0, readV s 5, readV s 15, s.i)) (stepWord 0xFF65 State.reset) =
    some (0xF0, 0x20, 0xF0, 0x10) := by decide
theorem test_load_regs_out : faultOf (fun s => (readV s 0, readV s 1, readV s 2, s.i))
    (stepWord 0xF265 (withV [(2, 0x99)] (withBytes 0xFFE [0xAA, 0xBB] { State.reset with i := 0xFFE }))) =
    some (0xAA, 0xBB, 0x99, 0xFFE) := by decide

/-! ### Display (T5) -/

theorem test_clear_screen : nextOf (fun s => (testPixel s.disp 3 4, s.dchg, readV s 15))
    (stepWord 0x00E0 (withV [(15, 7)] (withPixel 3 4 { State.reset with dchg := false }))) = some (false, true, 7) := by decide
theorem test_draw : nextOf (fun s => ((List.range 64).filter (testPixel s.disp 0), readV s 15))
    (stepWord 0xD011 (withV [(0, 8)] (withBytes 0x300 [0x3C] { State.reset with i := 0x300 }))) =
    some ([10, 11, 12, 13], 0) := by decide
theorem test_draw_clipped : nextOf (fun s => ((List.range 64).filter (testPixel s.disp 30),
      (List.range 64).filter (testPixel s.disp 31), (List.range 64).filter (testPixel s.disp 0)))
    (stepWord 0xD015 (withV [(0, 0x3C), (1, 0x1E)]
      (withBytes 0x300 [0xAA, 0x55, 0xFF, 0x0F, 0xF0] { State.reset with i := 0x300 }))) =
    some ([60, 62], [61, 63], []) := by decide
theorem test_draw_collision : nextOf (fun s => (testPixel s.disp 0 0, readV s 15))
    (stepWord 0xD011 (withPixel 0 0 (withBytes 0x300 [0x80] { State.reset with i := 0x300 }))) = some (false, 1) := by decide
theorem test_draw_out : errorOf (stepWord 0xD012 (withV [(1, 0x1F)] (withBytes 0xFFF [0xFF] { State.reset with i := 0xFFF }))) =
    some ("MemoryOutOfBounds", 0x1000) := by decide

/-! ### Keys and timers (T6, T7) -/

theorem test_skip_if_key : nextOf (·.pc) (stepWord 0xE19E (withKeys [7] (withV [(1, 7)]))) = some 0x204 ∧
    nextOf (·.pc) (stepWord 0xE19E (withV [(1, 7)])) = some 0x202 := by decide
theorem test_skip_if_not_key : nextOf (·.pc) (stepWord 0xE1A1 (withKeys [7] (withV [(1, 7)]))) = some 0x202 ∧
    nextOf (·.pc) (stepWord 0xE1A1 (withV [(1, 7)])) = some 0x204 := by decide
/-- D16: the spec's four values of `KEY_OOR`, for a value of 0x17 with key 7 down. -/
theorem test_key_out_of_range :
    let run := fun oor => testKey oor 0x17 (withKeys [7]) fun down s => .next (skipIf down s)
    nextOf (·.pc) (run .mask) = some 0x202 ∧ nextOf (·.pc) (run .up) = some 0x200 ∧
    errorOf (run .fault) = some ("KeyOutOfRange", 0x17) ∧ run .refuse = .refused (.keyOutOfRange 0x17) :=
  ⟨by decide, by decide, by decide, rfl⟩
theorem test_wait_key_latches_lowest : nextOf (fun s => (s.pc, s.kl, readV s 0)) (stepWord 0xF00A (withKeys [9, 3])) =
    some (0x200, some 3, 0) := by decide
theorem test_wait_key_stores : nextOf (fun s => (s.pc, s.kl, readV s 0))
    (stepWord 0xF00A (withKeys [3] { State.reset with kl := some 3 })) = some (0x202, none, 3) := by decide
theorem test_load_delay : nextOf (fun s => (s.dt, readV s 1)) (stepWord 0xF107 { State.reset with dt := 7 } 3) =
    some (4, 4) := by decide
theorem test_set_delay : nextOf (·.dt) (stepWord 0xF015 (withV [(0, 0x20)] { State.reset with dt := 7 }) 3) =
    some 0x20 := by decide
theorem test_set_sound : nextOf (fun s => (s.st, soundActive s)) (stepWord 0xF318 (withV [(3, 0x3C)])) =
    some (0x3C, true) := by decide
theorem test_ticks_floor : nextOf (fun s => (s.dt, s.st, soundActive s)) (stepWord 0x1200 { State.reset with dt := 2, st := 2 } 5) =
    some (0, 1, false) := by decide

/-! ### Errors and host operations (T8, T9) -/

theorem test_unknown_keeps_ticks : errorOf (stepWord 0xFFFF { State.reset with dt := 5 } 2) =
      some ("UnknownInstruction", 0xFFFF) ∧
    faultOf (fun s => (s.dt, s.pc)) (stepWord 0xFFFF { State.reset with dt := 5 } 2) = some (3, 0x202) := by decide
theorem test_fetch_out : errorOf (advance 0 { State.reset with pc := 0xFFF }) = some ("MemoryOutOfBounds", 0x1000) ∧
    faultOf (·.pc) (advance 0 { State.reset with pc := 0xFFF }) = some 0xFFF := by decide
theorem test_step_of_reset : errorOf (step State.reset) = some ("UnknownInstruction", 0) := by decide
theorem test_load : nextOf (fun s => (byteAt s 0x200, byteAt s 0x201, s.plen, s.pc)) (perform (.load [0x60, 0x12]) State.reset) =
    some (0x60, 0x12, 2, 0x200) := by decide
theorem test_set_key : nextOf (fun s => (s.key[7], s.key[6])) (perform (.setKey 7 true) State.reset) =
    some (true, false) := by decide
theorem test_sync_display : nextOf (·.dchg) (perform .syncDisplay State.reset) = some false := by decide
/-- R6: `FONT_END`, and the size of an opcode in bytes and bits. -/
theorem test_config : Config.fontEnd = 0x04F ∧ Config.instrBits = 8 * Config.instrBytes ∧ vF.val = 0xF := by decide
theorem test_reset_memory : Memory.wf State.reset.mem = true := by decide

/-! ### Witnesses: concrete data that meet the hypotheses of an obligation -/

theorem test_witness_DecodeOfEncodedInstruction : wellFormed (.jump 0xFFF) = true ∧ wellFormed (.draw 15 15 15) = true := by
  decide
theorem test_witness_EncodeOfDecodedWord : decode 0xFE65 = .ok (.loadRegs 14) := by decide
theorem test_witness_DecoderFollowsOpcodeMap :
    (⟨"shl", 0x800E, 0xF00F⟩ : OpcodeRow) ∈ opcodeRows ∧ (0x8ABE : Word) &&& 0xF00F = 0x800E := by decide
/-- At the last word of memory; a pending advance, and no pending move. -/
theorem test_witness_StepRunsDecodedInstruction :
    let s := withBytes 0xFFE [0x12, 0x00] { State.reset with pc := 0xFFE }
    s.pc.toNat < 4095 ∧ decode (wordOfBytes (byteAt s s.pc.toNat) (byteAt s (s.pc.toNat + 1))) = .ok (.jump 0x200) ∧
      s.host = [] ∧ ({ s with host := [.advance 2] } : State).host = .advance 2 :: [] := by decide
theorem test_witness_StepPerformsFirstPendingMove :
    ({ State.reset with host := [.fullReset, .advance 1] } : State).host = .fullReset :: [.advance 1] ∧
      State.reset.host = [] := ⟨rfl, rfl⟩
theorem test_witness_PlacedWordRunsNext :
    Memory.wf State.reset.mem = true ∧ decodeTableWord 16 0x6042 = some (.loadImm 0 0x42) ∧
    State.reset.pc.toNat < 4095 ∧ 4095 ≤ ({ State.reset with pc := 0xFFF } : State).pc.toNat := by decide
theorem test_witness_UnknownWordEndsAdvance : State.reset.pc.toNat < 4095 ∧
    wordOfBytes (byteAt State.reset State.reset.pc.toNat) (byteAt State.reset (State.reset.pc.toNat + 1)) = 0x0000 ∧
    ∀ i : Instr, decode 0x0000 ≠ .ok i := by
  refine ⟨by decide, by decide, fun i h => ?_⟩
  rw [show decode 0x0000 = .error (.unknownInstruction 0x0000) by decide] at h
  cases h
theorem test_witness_FetchErrorIsDeadEnd : 4095 ≤ ({ State.reset with pc := 0xFFF } : State).pc.toNat := by decide
theorem test_witness_ErrorsAreRaisedOnlyWhereNamed :
    exec .ret State.reset = .fault (.stackEmpty State.reset) ∧
    errorOf (exec (.call 0x300) { State.reset with sp := 16 }) = some ("StackOverflow", 0) ∧
    errorOf (exec (.storeBcd 0) { State.reset with i := 0xFFE }) = some ("MemoryOutOfBounds", 4096) ∧
    errorOf (exec (.storeRegs 1) { State.reset with i := 0xFFF }) = some ("MemoryOutOfBounds", 4096) ∧
    errorOf (exec (.loadRegs 1) { State.reset with i := 0xFFF }) = some ("MemoryOutOfBounds", 4096) ∧
    errorOf (exec (.draw 0 0 1) { State.reset with i := 0x1000 }) = some ("MemoryOutOfBounds", 4096) :=
  ⟨rfl, by decide, by decide, by decide, by decide, by decide⟩
theorem test_witness_ReturnPopsIntoPc :
    ({ State.reset with sp := 1 } : State).sp.val = (0 : Fin 16).val + 1 ∧
    ({ State.reset with sp := 16 } : State).sp.val = (15 : Fin 16).val + 1 ∧ State.reset.sp.val = 0 := by decide
theorem test_witness_CallPushesReturnAddress :
    State.reset.sp.val = (0 : Fin 16).val ∧ ({ State.reset with sp := 15 } : State).sp.val = (15 : Fin 16).val ∧
    ({ State.reset with sp := 16 } : State).sp.val = 16 := by decide
theorem test_witness_ReturnUndoesCall : ({ State.reset with sp := 15 } : State).sp.val < 16 := by decide
theorem test_witness_JumpOffsetAddsFirstRegister : (0xFFF : Word).toNat < 4096 := by decide
theorem test_witness_SkipsComparePlainBytes :
    (readV (withV [(3, 0xFF)]) 3).toNat = (0xFF : Byte).toNat ∧ (readV (withV [(3, 0xFF)]) 3).toNat ≠ (0x7F : Byte).toNat ∧
    (readV (withV [(3, 0xFF)]) 3).toNat ≠ (readV (withV [(3, 0xFF)]) 4).toNat ∧
    (readV (withV [(3, 0xFF)]) 4).toNat = (readV (withV [(3, 0xFF)]) 5).toNat := by decide
theorem test_witness_LogicOperationsResetFlag : (14 : Reg) ≠ vF ∧ (0 : Reg) ≠ vF ∧ (0 : Reg) ≠ 14 := by decide
/-- The sums 255 and 256. -/
theorem test_witness_AddSetsCarry :
    (readV (withV [(0, 0xFF), (1, 0x01)]) 0).toNat + (readV (withV [(0, 0xFF), (1, 0x01)]) 1).toNat = 256 ∧
    (readV (withV [(0, 0xFE), (1, 0x01)]) 0).toNat + (readV (withV [(0, 0xFE), (1, 0x01)]) 1).toNat = 255 := by decide
/-- Strictly greater by one, and equal. -/
theorem test_witness_SubtractionsFlagStrictlyGreater :
    (readV (withV [(0, 0x34), (1, 0x33)]) 1).toNat < (readV (withV [(0, 0x34), (1, 0x33)]) 0).toNat ∧
    (readV (withV [(0, 0x33), (1, 0x33)]) 0).toNat ≤ (readV (withV [(0, 0x33), (1, 0x33)]) 1).toNat := by decide
theorem test_witness_RandomMasksDrawnByte :
    ({ State.reset with rndIn := [0xA7] } : State).rndIn = 0xA7 :: [] ∧ State.reset.rndIn = [] ∧
    (0x0F : Byte).getLsbD 7 = false := by decide
theorem test_witness_StoreBcdWritesThreeDigits : Memory.wf ({ State.reset with i := 0xFFD } : State).mem = true ∧
    ({ State.reset with i := 0xFFD } : State).i.toNat + 3 ≤ 4096 := by decide
theorem test_witness_StoreRegsWritesBlock : Memory.wf ({ State.reset with i := 0xFF0 } : State).mem = true ∧
    ({ State.reset with i := 0xFF0 } : State).i.toNat + (15 : Reg).val + 1 ≤ 4096 := by decide
theorem test_witness_LoadRegsReadsBlock :
    ({ State.reset with i := 0xFF0 } : State).i.toNat + (15 : Reg).val + 1 ≤ 4096 ∧ (14 : Reg) < 15 := by decide
/-- One byte past the end, for both stores; the first byte still exists. -/
theorem test_witness_FailingStoreKeepsEarlierBytes :
    4096 < ({ State.reset with i := 0xFFE } : State).i.toNat + 3 ∧
    4096 < ({ State.reset with i := 0xFF1 } : State).i.toNat + (15 : Reg).val + 1 ∧
    effectiveAddress { State.reset with i := 0xFFE } 1 < 4096 ∧ effectiveAddress { State.reset with i := 0xFF1 } 14 < 4096 ∧
    Memory.wf State.reset.mem = true := by decide
theorem test_witness_FailingLoadKeepsEarlierRegisters :
    4096 < ({ State.reset with i := 0xFF1 } : State).i.toNat + (15 : Reg).val + 1 ∧
    effectiveAddress { State.reset with i := 0xFF1 } 14 < 4096 ∧ 4096 ≤ effectiveAddress { State.reset with i := 0xFF1 } 15 := by
  decide
theorem test_witness_ReadAfterWrite : Memory.wf State.reset.mem = true ∧ 4095 < 4096 ∧ 4096 ≤ 4096 ∧
    memRead 0 State.reset = .ok (byteAt State.reset 0) := by
  refine ⟨by decide, by decide, by decide, rfl⟩
theorem test_witness_FetchSeesStoredBytes : Memory.wf ({ State.reset with i := 0xFFE } : State).mem = true ∧
    ({ State.reset with i := 0xFFE } : State).i.toNat + (1 : Reg).val + 1 ≤ 4096 ∧ (1 : Reg) ≤ 1 ∧
    (1 : Reg).val = (0 : Reg).val + 1 := by decide
/-- The last byte of memory as a sprite that turns on the pixel (0,0), or turns it off; and a height of 0. -/
theorem test_witness_DrawTogglesSpritePixels :
    let s := withBytes 0xFFF [0x80] { State.reset with i := 0xFFF }
    s.i.toNat + 1 ≤ 4096 ∧ spritePixel 0 0 (bytesFrom s (effectiveAddress s 0) 1) 0 0 = true ∧
    testPixel (withPixel 0 0 s).disp 0 0 = true ∧ (∀ r c : Nat, r < 32 → c < 64 → testPixel s.disp r c = false) ∧
    ((0 : Nat) = 0 ∨ s.i.toNat + 0 ≤ 4096) :=
  ⟨by decide, by decide, by decide, fun r c _ _ => testPixel_blank r c, .inl rfl⟩
theorem test_witness_FailingDrawChangesNothing : 0 < 1 ∧ 4096 < ({ State.reset with i := 0x1000 } : State).i.toNat + 1 := by
  decide
/-- A draw that turns the pixel (0,0) on; and one of an empty sprite, which turns no pixel on. -/
theorem test_witness_DoubleDrawRestoresDisplay :
    let s := withBytes 0xFFF [0x80] { State.reset with i := 0xFFF }
    s.i.toNat + 1 ≤ 4096 ∧ (0 : Reg) ≠ vF ∧ (1 : Reg) ≠ vF ∧ testPixel s.disp 0 0 = false ∧
    nextOf (fun t => testPixel t.disp 0 0) (exec (.draw 0 1 1) s) = some true ∧
    nextOf (·.disp) (exec (.draw 0 1 0) s) = some s.disp := ⟨by decide, by decide, by decide, by decide, by decide, rfl⟩
theorem test_witness_KeySkipsTestNamedKey :
    (readV (withV [(1, 0x0F)]) 1).toNat = (15 : Key).val ∧ (withKeys [15]).key[(15 : Key)] = true ∧
    State.reset.key[(15 : Key)] = false ∧ 15 < (readV (withV [(1, 0x10)]) 1).toNat := by decide
theorem test_witness_WaitKeyLatchesThenStores :
    State.reset.kl = none ∧ (∀ k : Key, State.reset.key[k] = false) ∧ (withKeys [9, 3]).key[(3 : Key)] = true ∧
    (∀ j : Key, j < 3 → (withKeys [9, 3]).key[j] = false) ∧
    ({ State.reset with kl := some 3 } : State).kl = some 3 := by decide
theorem test_witness_TicksStopAtTheirFloors : 1 ≤ ({ State.reset with st := 1 } : State).st.toNat ∧
    State.reset.st.toNat = 0 := by decide
theorem test_witness_OnlyControlInstructionsMovePc :
    stateAfter (exec (.loadImm 0 1) State.reset) = some (writeV 0 1 State.reset) := rfl
theorem test_witness_StateIsWrittenOnlyByItsInstructions :
    stateAfter (exec (.setDelay 0) State.reset) = some (setDt (readV State.reset 0) State.reset) := rfl
theorem test_witness_FlagIsWrittenOnlyByListedInstructions :
    nextOf (fun t => readV t vF) (exec (.add 0 1) (withV [(0, 0xFF), (1, 0x01)])) = some 1 ∧
    readV (withV [(0, 0xFF), (1, 0x01)]) vF = 0 := by decide
theorem test_witness_LatchBelongsToWaitKey : ∀ x, Instr.loadDelay 3 ≠ .waitKey x := by decide
theorem test_witness_inv_reset : Inv State.reset where
  mem := by decide
  plen := by decide
  pc := by decide
  frames := by decide
/-- A step from a state with the invariant that goes on; and one that ends in an error. -/
theorem test_witness_StepKeepsInvariant : Inv { State.reset with host := [.setKey 3 true] } ∧
    step { State.reset with host := [.setKey 3 true] } = .next (setKey 3 true State.reset) :=
  ⟨⟨by decide, by decide, by decide, by decide⟩, rfl⟩
theorem test_witness_ErrorsLeaveInvariant : Inv State.reset ∧ ∃ r, step State.reset = .fault r :=
  ⟨test_witness_inv_reset, _, rfl⟩
theorem test_witness_ConstructState : 0x200 ≤ 0xFFF ∧ 0xFFF < 4096 ∧ 15 < 16 ∧ 4 < 5 := by decide
theorem test_witness_FullResetKeepsLowMemory : Memory.wf (withBytes 0x10 [0xAA]).mem = true ∧ 0x1FF < 0x200 := by decide
/-- `PLEN` at both ends of its range, and images at both. -/
theorem test_witness_LightReloadKeepsLoadedImage : Memory.wf State.reset.mem = true ∧
    State.reset.plen ≤ 3584 ∧ ({ State.reset with plen := 3584 } : State).plen ≤ 3584 ∧
    (List.replicate 3584 (0xAB : Byte)).length ≤ 3584 ∧ ([0x60, 0x12] : List Byte).length ≤ 3584 := by
  exact ⟨by decide, by decide, by decide, Nat.le_of_eq List.length_replicate, by decide⟩
theorem test_witness_LoadWritesImageOnly : Memory.wf State.reset.mem = true ∧
    (List.replicate 3584 (0xAB : Byte)).length ≤ 3584 ∧ 3584 < (List.replicate 3585 (0xAB : Byte)).length := by
  exact ⟨by decide, Nat.le_of_eq List.length_replicate, by rw [List.length_replicate]; omega⟩
theorem test_witness_SyncDisplayDeliversOnce : State.reset.dchg = true ∧
    ({ State.reset with dchg := false } : State).dchg = false := ⟨rfl, rfl⟩

end Sys2Proof.Machine
end

section
/-! PROOFS, family 00_scope. What one step does, by whether a move of the host is pending. -/

namespace Sys2Proof.Machine

/-- R5: the first pending move is performed on the state without it (log 14). -/
theorem step_pending {s : State} {m : HostMove} {rest : List HostMove} (h : s.host = m :: rest) :
    step s = perform m { s with host := rest } := by
  rw [step, nextMove_pending h]

/-- R200: with no move pending, the step is an advance with a free number of ticks (log 11, 14). -/
theorem step_none_pending {s : State} (h : s.host = []) :
    step s = advance (Config.freeTicks s.draws) (countDraw s) := by
  rw [step, nextMove_none h, perform]

/-- Settles O8: `step` performs what `nextMove` takes up, in each of the two cases of the list of pending moves. -/
theorem stepPerformsFirstPendingMove : Obligations.StepPerformsFirstPendingMove :=
  fun _ => ⟨fun _ _ => step_pending, step_none_pending⟩

end Sys2Proof.Machine
end

section
/-! PROOFS, family 10_state: the states that a result holds, and which parts of the state each instruction writes. -/

namespace Sys2Proof.Machine

/-! ### The states a result holds -/

/-- Every state the result holds, the next one or the one an error leaves (R206), satisfies `P`. -/
def Leaves (P : State → Prop) (o : Result) : Prop := ∀ t, stateAfter o = some t → P t

@[simp] theorem leaves_next {P : State → Prop} {s : State} : Leaves P (.next s) ↔ P s := by
  simp [Leaves, stateAfter]

@[simp] theorem leaves_fault {P : State → Prop} {r : Fault} : Leaves P (.fault r) ↔ P r.left := by
  simp [Leaves, stateAfter]

theorem leaves_raise {P : State → Prop} {e : State → Fault} {s : State} : Leaves P (raise e s) ↔ P (e s).left :=
  leaves_fault

/-- What holds of every state the first part holds and is kept by the second holds of the whole. -/
theorem Leaves.andThen {P : State → Prop} {o : Result} {f : State → Result} (h : Leaves P o)
    (hf : ∀ t, P t → Leaves P (f t)) : Leaves P (andThen o f) := by
  cases o with
  | next s => exact hf s (leaves_next.1 h)
  | fault r => exact h
  | refused q => exact h

/-! ### The parts of the state that an instruction writes -/

/-- The parts of the state (10_state.md R20 to R38) that instructions write; `supply` is the model's own (log 12, 15). -/
inductive Part where
  | reg (r : Reg)
  | index
  | pc
  | stack
  | delay
  | sound
  | latch
  | mem
  | display
  | supply

/-- One write of one part of the state. -/
inductive Write : Part → State → State → Prop
  | reg (r : Reg) (b : Byte) (s : State) : Write (.reg r) s (writeV r b s)
  | index (a : Word) (s : State) : Write .index s (setI a s)
  | pc (a : Word) (s : State) : Write .pc s (setPc a s)
  | stack (st : Vector Word 16) (sp : Fin 17) (s : State) : Write .stack s { s with stack := st, sp := sp }
  | delay (b : Byte) (s : State) : Write .delay s (setDt b s)
  | sound (b : Byte) (s : State) : Write .sound s (setSt b s)
  | latch (k : Option Key) (s : State) : Write .latch s (setKl k s)
  | mem (a : Nat) (b : Byte) (s : State) (h : a < Config.memSize) :
      Write .mem s { s with mem := Memory.write s.mem a b }
  | display (d : Display) (c : Bool) (s : State) : Write .display s (setDisplay d c s)
  | supply (l : List Byte) (n : Nat) (s : State) : Write .supply s { s with rndIn := l, draws := n }

/-- The second state comes from the first by writes of the listed parts. -/
def WritesOnly (l : List Part) : State → State → Prop := Relation.ReflTransGen fun s t => ∃ p ∈ l, Write p s t

/-- The parts that an instruction may write (40_control_transfer.md to 44_keys_timers.md); the flag's index: log 4. -/
def parts : Instr → List Part
  | .clearScreen => [.display]
  | .ret | .call _ => [.pc, .stack]
  | .jump _ | .jumpOffset _ | .skipEqImm _ _ | .skipNeImm _ _ | .skipEqReg _ _ | .skipNeReg _ _ => [.pc]
  | .loadImm x _ | .addImm x _ | .set x _ | .loadDelay x => [.reg x]
  | .or x _ | .and x _ | .xor x _ | .add x _ | .sub x _ | .subn x _ | .shr x _ | .shl x _ => [.reg x, .reg vF]
  | .setIndex _ | .addIndex _ | .loadFontAddr _ => [.index]
  | .random x _ => [.reg x, .supply]
  | .draw _ _ _ => [.reg vF, .display]
  | .skipIfKey _ | .skipIfNotKey _ => [.pc, .supply]
  | .waitKey x => [.reg x, .pc, .latch]
  | .setDelay _ => [.delay]
  | .setSound _ => [.sound]
  | .storeBcd _ => [.mem]
  | .storeRegs _ => [.index, .mem]
  | .loadRegs x => .index :: (regsUpTo x).map .reg

section WritesOnly

variable {l : List Part} {p : Part} {s t u : State}

theorem WritesOnly.refl (l : List Part) (s : State) : WritesOnly l s s := Relation.ReflTransGen.refl

theorem WritesOnly.trans (h : WritesOnly l s t) (h' : WritesOnly l t u) : WritesOnly l s u :=
  Relation.ReflTransGen.trans h h'

theorem WritesOnly.single (hp : p ∈ l) (h : Write p s t) : WritesOnly l s t :=
  Relation.ReflTransGen.single ⟨p, hp, h⟩

/-- One more write after the others. -/
theorem WritesOnly.write (h : WritesOnly l s t) (hp : p ∈ l) (h' : Write p t u) : WritesOnly l s u :=
  h.trans (.single hp h')

/-- What a write of each listed part keeps, all of them together keep. -/
theorem WritesOnly.keeps {P : State → Prop} (h : WritesOnly l s t)
    (hP : ∀ p ∈ l, ∀ s t, Write p s t → P s → P t) (hs : P s) : P t := by
  induction h with
  | refl => exact hs
  | tail _ hw ih =>
    obtain ⟨p, hp, hw⟩ := hw
    exact hP p hp _ _ hw ih

/-- R24: `pc` is as before if it is not one of the parts. -/
theorem WritesOnly.pc_eq (h : WritesOnly l s t) (hp : Part.pc ∉ l) : t.pc = s.pc := by
  refine h.keeps (P := fun t => t.pc = s.pc) (fun p hl a b hw hs => ?_) rfl
  cases hw with
  | pc => exact absurd hl hp
  | _ => exact hs

/-- R20, R21: a register reads as before if it is not one of the parts. -/
theorem WritesOnly.readV_eq (h : WritesOnly l s t) {r : Reg} (hr : Part.reg r ∉ l) : readV t r = readV s r := by
  refine h.keeps (P := fun t => readV t r = readV s r) (fun p hl a b hw hs => ?_) rfl
  cases hw with
  | reg q b =>
    have hne : r ≠ q := fun e => hr (e ▸ hl)
    rwa [readV_writeV, if_neg hne]
  | _ => exact hs

/-- R29: the call stack is as before if it is not one of the parts. -/
theorem WritesOnly.stack_eq (h : WritesOnly l s t) (hp : Part.stack ∉ l) : sameStack s t := by
  refine h.keeps (P := fun t => sameStack s t) (fun p hl a b hw hs => ?_) ⟨rfl, rfl⟩
  cases hw with
  | stack => exact absurd hl hp
  | _ => exact hs

/-- R41: no write changes `PLEN`. -/
theorem WritesOnly.plen_eq (h : WritesOnly l s t) : t.plen = s.plen := by
  refine h.keeps (P := fun t => t.plen = s.plen) (fun p _ a b hw hs => ?_) rfl
  cases hw <;> exact hs

/-- 20_memory.md R61: every write keeps memory canonical and inside the address space. -/
theorem WritesOnly.mem_wf (h : WritesOnly l s t) (hm : Memory.wf s.mem = true) : Memory.wf t.mem = true := by
  refine h.keeps (P := fun t => Memory.wf t.mem = true) (fun p _ a b hw hs => ?_) hm
  cases hw with
  | mem a b _ ha => exact Memory.wf_write hs ha
  | _ => exact hs

end WritesOnly

/-! ### What the shared operations write -/

section Operations

variable {l : List Part}

theorem skipIf_writes (hp : Part.pc ∈ l) (c : Bool) (s : State) : WritesOnly l s (skipIf c s) :=
  skipIf_eq_setPc c s ▸ .single hp (.pc _ s)

theorem writeResultThenFlag_writes (x : Reg) (result flag : Byte) (s : State) :
    WritesOnly [.reg x, .reg vF] s (writeResultThenFlag x result flag s) :=
  (WritesOnly.single (by simp) (.reg x result s)).write (by simp) (.reg vF flag _)

theorem nextRandom_writes (hp : Part.supply ∈ l) (s : State) : WritesOnly l s (nextRandom s).2 := by
  obtain ⟨b, rest, _, h⟩ | ⟨_, h⟩ := nextRandom_state s
  · exact h ▸ .single hp (.supply rest s.draws s)
  · exact h ▸ .single hp (.supply s.rndIn (s.draws + 1) s)

theorem push_writes (hp : Part.stack ∈ l) (a : Word) (s : State) : Leaves (WritesOnly l s) (push a s) := by
  unfold push
  split
  · exact leaves_next.2 (.single hp (.stack _ _ s))
  · exact leaves_raise.2 (.refl l s)

theorem popToPc_writes (s : State) : Leaves (WritesOnly [.pc, .stack] s) (popToPc s) := by
  by_cases h : s.sp.val = 0
  · exact popToPc_fault h ▸ leaves_fault.2 (.refl _ s)
  · have hsp : WritesOnly [.pc, .stack] s { s with sp := ⟨s.sp.val - 1, by omega⟩ } :=
      .single (by simp) (.stack s.stack _ s)
    exact popToPc_next h ▸ leaves_next.2 (hsp.write (p := .pc) (by simp) (.pc (s.stack[s.sp.val - 1]'(by omega)) _))

theorem memWrite_writes (hp : Part.mem ∈ l) (a : Nat) (b : Byte) (s : State) :
    Leaves (WritesOnly l s) (memWrite a b s) := by
  unfold memWrite
  split
  · next h => exact leaves_next.2 (.single hp (.mem a b s h))
  · exact leaves_raise.2 (.refl l s)

theorem storeBytes_writes (hp : Part.mem ∈ l) (a : Nat) (bs : List Byte) (s : State) :
    Leaves (WritesOnly l s) (storeBytes a bs s) := by
  induction bs generalizing a s with
  | nil => exact leaves_next.2 (.refl l s)
  | cons b bs ih =>
    exact (memWrite_writes hp a b s).andThen fun t ht u hu => ht.trans (ih (a + 1) t u hu)

/-- An error of a byte read leaves the state as it is. -/
theorem memRead_error_left {a : Nat} {s : State} {r : Fault} (h : memRead a s = .error r) : r.left = s := by
  unfold memRead at h
  split at h
  · cases h
  · cases h; rfl

theorem loadBytes_writes {rs : List Reg} (hp : ∀ r ∈ rs, Part.reg r ∈ l) (a : Nat) (s : State) :
    Leaves (WritesOnly l s) (loadBytes a rs s) := by
  induction rs generalizing a s with
  | nil => exact leaves_next.2 (.refl l s)
  | cons r rs ih =>
    unfold loadBytes
    split
    · next e he => exact leaves_fault.2 (memRead_error_left he ▸ .refl l s)
    · next b _ =>
      have hr : WritesOnly l s (writeV r b s) := .single (hp r List.mem_cons_self) (.reg r b s)
      exact fun u hu => hr.trans (ih (fun q hq => hp q (List.mem_cons_of_mem r hq)) (a + 1) _ u hu)

theorem testKey_writes (hp : Part.supply ∈ l) (b : Byte) (s : State) {go : Bool → State → Result}
    (hgo : ∀ down t, Leaves (WritesOnly l t) (go down t)) :
    Leaves (WritesOnly l s) (testKey params.keyOor b s go) := by
  obtain ⟨down, t, rfl | rfl, h⟩ := testKey_cases b s go
  · exact h ▸ hgo down t
  · have hc : WritesOnly l s (countDraw s) := .single hp (.supply s.rndIn (s.draws + 1) s)
    exact h ▸ fun u hu => hc.trans (hgo down _ u hu)

theorem execSkipIfKey_writes (x : Reg) (s : State) : Leaves (WritesOnly [.pc, .supply] s) (execSkipIfKey x s) :=
  testKey_writes (by simp) _ s fun down t => leaves_next.2 (skipIf_writes (by simp) down t)

theorem execSkipIfNotKey_writes (x : Reg) (s : State) :
    Leaves (WritesOnly [.pc, .supply] s) (execSkipIfNotKey x s) :=
  testKey_writes (by simp) _ s fun down t => leaves_next.2 (skipIf_writes (by simp) (!down) t)

/-- R181: `draw` where its bytes exist; with `n = 0` none is read (log 23). -/
theorem execDraw_next {x y : Reg} {n : Nat} {s : State} (h : n = 0 ∨ s.i.toNat + n ≤ 4096) :
    execDraw x y n s = .next (drawSprite x y (bytesFrom s (effectiveAddress s 0) n) s) := by
  have hread : readBytes (effectiveAddress s 0) n s = .ok (bytesFrom s (effectiveAddress s 0) n) := by
    rcases h with rfl | h
    · rfl
    · exact readBytes_ok h
  simp [execDraw, readSprite, hread]

/-- R181, R202: `draw` one of whose bytes does not exist leaves the state as it is (log 22, 28). -/
theorem execDraw_fault {x y : Reg} {n : Nat} {s : State} (h : ¬(n = 0 ∨ s.i.toNat + n ≤ 4096)) :
    execDraw x y n s = .fault (.memoryOutOfBounds (max s.i.toNat 4096) s) := by
  have hread : readBytes (effectiveAddress s 0) n s = .error (.memoryOutOfBounds (max s.i.toNat 4096) s) :=
    readBytes_error (show 4096 < s.i.toNat + n by omega) (by omega)
  simp [execDraw, readSprite, hread]

theorem drawSprite_writes (x y : Reg) (rows : List Byte) (s : State) :
    WritesOnly [.reg vF, .display] s (drawSprite x y rows s) :=
  (WritesOnly.single (by simp) (.display _ _ s)).write (by simp) (.reg vF _ _)

theorem execDraw_writes (x y : Reg) (n : Nat) (s : State) :
    Leaves (WritesOnly [.reg vF, .display] s) (execDraw x y n s) := by
  by_cases h : n = 0 ∨ s.i.toNat + n ≤ 4096
  · exact execDraw_next h ▸ leaves_next.2 (drawSprite_writes x y _ s)
  · exact execDraw_fault h ▸ leaves_fault.2 (.refl _ s)

/-- R192: with no key latched, `wait-key` awaits one. -/
theorem execWaitKey_unlatched {x : Reg} {s : State} (h : s.kl = none) : execWaitKey x s = .next (awaitKey s) := by
  simp only [execWaitKey, h]

/-- R192: a latched key that is down is stored, and the latch cleared. -/
theorem execWaitKey_down {x : Reg} {s : State} {k : Key} (h : s.kl = some k) (hk : s.key[k] = true) :
    execWaitKey x s = .next (setKl none (writeV x (BitVec.ofNat 8 k.val) s)) := by
  simp only [execWaitKey, h, hk, if_true]

/-- R192: a latched key that is up is waited for (log 19). -/
theorem execWaitKey_up {x : Reg} {s : State} {k : Key} (h : s.kl = some k) (hk : s.key[k] = false) :
    execWaitKey x s = .next (rewind s) := by
  simp only [execWaitKey, h, hk, params_lostLatch, latchLost]
  rfl

/-- R192: an awaiting poll goes back to itself, with the latch as it is or with a key in it. -/
theorem awaitKey_cases (s : State) : ∃ k, awaitKey s = rewind (setKl k s) := by
  unfold awaitKey
  cases lowestKeyDown s with
  | none => exact ⟨s.kl, rfl⟩
  | some k => exact ⟨some k, rfl⟩

/-- R192: `wait-key` stores a key, or issues itself again with some latch. -/
theorem execWaitKey_cases (x : Reg) (s : State) :
    (∃ b, execWaitKey x s = .next (setKl none (writeV x b s))) ∨ ∃ k, execWaitKey x s = .next (rewind (setKl k s)) := by
  cases h : s.kl with
  | none =>
    obtain ⟨k, hk⟩ := awaitKey_cases s
    exact .inr ⟨k, hk ▸ execWaitKey_unlatched h⟩
  | some k =>
    cases hk : s.key[k] with
    | true => exact .inl ⟨_, execWaitKey_down h hk⟩
    | false => exact .inr ⟨s.kl, execWaitKey_up h hk⟩

theorem execWaitKey_writes (x : Reg) (s : State) : Leaves (WritesOnly [.reg x, .pc, .latch] s) (execWaitKey x s) := by
  obtain ⟨b, h⟩ | ⟨k, h⟩ := execWaitKey_cases x s
  · exact h ▸ leaves_next.2 ((WritesOnly.single (by simp) (.reg x b s)).write (by simp) (.latch none _))
  · exact h ▸ leaves_next.2 ((WritesOnly.single (by simp) (.latch k s)).write (by simp) (.pc _ _))

theorem advanceIndex_writes (hp : Part.index ∈ l) (x : Reg) (s : State) :
    Leaves (WritesOnly l s) (advanceIndex x s) :=
  leaves_next.2 (.single hp (.index _ s))

end Operations

/-! ### What each instruction writes -/

/-- Every instruction, whether it completes or fails, writes only its own parts of the state. -/
theorem exec_writes_only (i : Instr) (s : State) : Leaves (WritesOnly (parts i) s) (exec i s) := by
  cases i with
  | clearScreen => exact leaves_next.2 (.single (by simp [parts]) (.display _ _ s))
  | ret => exact popToPc_writes s
  | call a =>
    exact (push_writes (by simp [parts]) s.pc s).andThen fun t ht =>
      leaves_next.2 (ht.write (by simp [parts]) (.pc a t))
  | jump | jumpOffset => exact leaves_next.2 (.single (by simp [parts]) (.pc _ s))
  | skipEqImm | skipNeImm | skipEqReg | skipNeReg => exact leaves_next.2 (skipIf_writes (by simp [parts]) _ s)
  | loadImm | addImm | set | loadDelay => exact leaves_next.2 (.single (by simp [parts]) (.reg _ _ s))
  | or x | and x | xor x | add x | sub x | subn x | shr x | shl x =>
    exact leaves_next.2 (writeResultThenFlag_writes x _ _ s)
  | setIndex | addIndex | loadFontAddr => exact leaves_next.2 (.single (by simp [parts]) (.index _ s))
  | random x =>
    exact leaves_next.2 ((nextRandom_writes (by simp [parts]) s).write (by simp [parts]) (.reg x _ _))
  | draw x y n => exact execDraw_writes x y n s
  | skipIfKey x => exact execSkipIfKey_writes x s
  | skipIfNotKey x => exact execSkipIfNotKey_writes x s
  | waitKey x => exact execWaitKey_writes x s
  | setDelay => exact leaves_next.2 (.single (by simp [parts]) (.delay _ s))
  | setSound => exact leaves_next.2 (.single (by simp [parts]) (.sound _ s))
  | storeBcd => exact storeBytes_writes (by simp [parts]) _ _ s
  | storeRegs x =>
    exact (storeBytes_writes (by simp [parts]) _ _ s).andThen fun t ht u hu =>
      ht.trans (advanceIndex_writes (by simp [parts]) x t u hu)
  | loadRegs x =>
    exact (loadBytes_writes (fun r hr => by simp [parts, hr]) _ s).andThen fun t ht u hu =>
      ht.trans (advanceIndex_writes (by simp [parts]) x t u hu)

/-- Settles O46: `pc` is no part of any instruction but those the statement excludes. -/
theorem onlyControlInstructionsMovePc : Obligations.OnlyControlInstructionsMovePc := by
  intro i s t h hret hjump hskipImm hskipReg hkey
  refine (exec_writes_only i s t h).pc_eq ?_
  cases i with
  | ret => exact absurd rfl hret
  | jump a => exact absurd rfl (hjump a).1
  | call a => exact absurd rfl (hjump a).2.1
  | jumpOffset a => exact absurd rfl (hjump a).2.2
  | skipEqImm x nn => exact absurd rfl (hskipImm x nn).1
  | skipNeImm x nn => exact absurd rfl (hskipImm x nn).2
  | skipEqReg x y => exact absurd rfl (hskipReg x y).1
  | skipNeReg x y => exact absurd rfl (hskipReg x y).2
  | skipIfKey x => exact absurd rfl (hkey x).1
  | skipIfNotKey x => exact absurd rfl (hkey x).2.1
  | waitKey x => exact absurd rfl (hkey x).2.2
  | _ => simp [parts]

/-- The flag register is the last of the registers. -/
theorem vF_le_iff {x : Reg} : vF ≤ x ↔ x = vF := by
  revert x; decide

/-- Settles O48: an instruction that changes the flag register has it among its parts, always or as its destination. -/
theorem flagIsWrittenOnlyByListedInstructions : Obligations.FlagIsWrittenOnlyByListedInstructions := by
  intro i s t h hne
  have hmem : Part.reg vF ∈ parts i := by_contra fun hn => hne ((exec_writes_only i s t h).readV_eq hn)
  cases i with
  | or x y | and x y | xor x y | add x y | sub x y | subn x y | shr x y | shl x y => exact .inl ⟨x, y, by simp⟩
  | draw x y n => exact .inr (.inl ⟨x, y, n, rfl⟩)
  | loadImm x nn | addImm x nn | random x nn =>
    obtain rfl : vF = x := by simpa [parts] using hmem
    exact .inr (.inr (.inl ⟨nn, by simp⟩))
  | set x y =>
    obtain rfl : vF = x := by simpa [parts] using hmem
    exact .inr (.inr (.inr (.inl ⟨y, rfl⟩)))
  | loadDelay x | waitKey x =>
    obtain rfl : vF = x := by simpa [parts] using hmem
    simp
  | loadRegs x =>
    obtain rfl : x = vF := by simpa [parts, mem_regsUpTo, vF_le_iff] using hmem
    simp
  | _ => simp [parts] at hmem

end Sys2Proof.Machine
end

section
/-! PROOFS, family 10_state: the state after construct, and the invariant that every step keeps. -/

namespace Sys2Proof.Machine

/-! ### The state after construct -/

/-- R44: past the font, memory is zero at construct. -/
theorem unlisted_past_font {a : Nat} (h : 80 ≤ a) : Memory.unlisted a = 0 :=
  dif_neg (Nat.not_lt.mpr h)

/-- R34: byte `j` of glyph `g` stands at `5 g + j`. -/
theorem unlisted_glyph {g j : Nat} (hg : g < 16) (hj : j < 5) : Memory.unlisted (5 * g + j) = params.font[g][j] := by
  have hd : (5 * g + j) / 5 = g := by omega
  have hm : (5 * g + j) % 5 = j := by omega
  have ha : 5 * g + j < 80 := by omega
  simp only [Memory.unlisted, fontByte, dif_pos ha, hd, hm]

/-- Settles O54: memory at construct lists no cell, so every byte reads as its unlisted content. -/
theorem constructState : Obligations.ConstructState := by
  refine ⟨rfl, rfl, fun k => ?_, fun a ha _ => unlisted_past_font (by omega), fun g j hg hj => ?_⟩
  · simp [State.reset]
  · rw [Config.fontBase, Nat.zero_add]
    exact unlisted_glyph hg hj

/-- Settles O51: no frame is in use, and the other values are within their bounds. -/
theorem resetMeetsInvariant : Obligations.ResetMeetsInvariant where
  mem := rfl
  plen := Nat.zero_le _
  pc := by decide
  frames := fun j hj => absurd hj (Nat.not_lt_zero j.val)

/-! ### The decoder answers well-formed instructions -/

theorem toNat_lt_of_addressFits {a : Word} (h : addressFits a = true) : a.toNat < 4096 :=
  of_decide_eq_true h

theorem addressFits_fieldNNN (op : Word) : addressFits (fieldNNN op) = true := by
  have h := fieldNNN_toNat op
  simp only [addressFits, decide_eq_true_eq]
  omega

theorem countFits_fieldN (op : Word) : countFits (fieldN op).toNat = true :=
  decide_eq_true (fieldN op).isLt

theorem decodeFamily8_wellFormed {op : Word} {i : Instr} (h : decodeFamily8 op = .ok i) : wellFormed i = true := by
  unfold decodeFamily8 at h
  split at h <;> cases h <;> rfl

theorem decodeFamilyE_wellFormed {op : Word} {i : Instr} (h : decodeFamilyE op = .ok i) : wellFormed i = true := by
  unfold decodeFamilyE at h
  split at h <;> cases h <;> rfl

theorem decodeFamilyF_wellFormed {op : Word} {i : Instr} (h : decodeFamilyF op = .ok i) : wellFormed i = true := by
  unfold decodeFamilyF at h
  split at h <;> cases h <;> rfl

/-- R91, R94: the operands of what a word decodes to fit their fields. -/
theorem decode_wellFormed {op : Word} {i : Instr} (h : decode op = .ok i) : wellFormed i = true := by
  have haddr := addressFits_fieldNNN op
  have hcount := countFits_fieldN op
  unfold decode at h
  split at h
  case h_9 => exact decodeFamily8_wellFormed h
  case h_15 => exact decodeFamilyE_wellFormed h
  case h_16 => exact decodeFamilyF_wellFormed h
  case h_2 | h_3 | h_11 | h_12 => cases h; exact haddr
  case h_14 => cases h; exact hcount
  case h_1 | h_6 | h_10 => split_ifs at h <;> cases h <;> rfl
  all_goals cases h; rfl

/-! ### One instruction keeps the invariant -/

/-- Writes that leave the call stack alone and keep `pc` in its range keep the invariant. -/
theorem WritesOnly.inv {l : List Part} {s t : State} (h : WritesOnly l s t) (hl : Part.stack ∉ l) (hs : Inv s)
    (hpc : t.pc.toNat ≤ 0x10FE) : Inv t where
  mem := h.mem_wf hs.mem
  plen := h.plen_eq ▸ hs.plen
  pc := hpc
  frames := by
    obtain ⟨hst, hsp⟩ := h.stack_eq hl
    rw [hst, hsp]
    exact hs.frames

theorem exec_keeps_inv_of_pc {i : Instr} {s : State} (hi : Part.stack ∉ parts i) (hs : Inv s)
    (hpc : Leaves (fun t => t.pc.toNat ≤ 0x10FE) (exec i s)) : Leaves Inv (exec i s) :=
  fun t ht => (exec_writes_only i s t ht).inv hi hs (hpc t ht)

theorem exec_keeps_inv_of_no_pc {i : Instr} {s : State} (hi : Part.stack ∉ parts i) (hp : Part.pc ∉ parts i)
    (hs : Inv s) : Leaves Inv (exec i s) :=
  exec_keeps_inv_of_pc hi hs fun t ht => (congrArg BitVec.toNat ((exec_writes_only i s t ht).pc_eq hp)).trans_le hs.pc

/-- R26, R29: the frame popped is one in use, so `pc` is at most 0x1000. -/
theorem execReturn_keeps_inv {s : State} (hs : Inv s) : Leaves Inv (execReturn s) := by
  unfold execReturn
  by_cases h : s.sp.val = 0
  · rw [popToPc_fault h]
    exact leaves_fault.2 hs
  · rw [popToPc_next h, leaves_next]
    have htop := hs.frames ⟨s.sp.val - 1, by omega⟩ (by simp only; omega)
    exact ⟨hs.mem, hs.plen, Nat.le_trans htop (by decide), fun j hj => hs.frames j (by simp only at hj; omega)⟩

/-- R26, R29: the frame pushed is where the fetch left `pc`, at most 0x1000. -/
theorem execCall_keeps_inv {a : Word} {s : State} (hs : Inv s) (ha : a.toNat < 4096) (hpc : s.pc.toNat ≤ 0x1000) :
    Leaves Inv (execCall a s) := by
  unfold execCall
  by_cases h : s.sp.val < 16
  · rw [push_next h, andThen, leaves_next]
    refine ⟨hs.mem, hs.plen, by simp only [setPc_pc]; omega, fun j hj => ?_⟩
    simp only [setPc_stack, setPc_sp, Fin.getElem_fin, Vector.getElem_set] at hj ⊢
    split
    · exact hpc
    · exact hs.frames j (by omega)
  · rw [push_fault (by omega), andThen]
    exact leaves_fault.2 hs

/-- R26: a skip from where the fetch can leave `pc` stays below the greatest `pc`. -/
theorem skipIf_pc_le {s : State} (h : s.pc.toNat ≤ 0x1000) (c : Bool) : (skipIf c s).pc.toNat ≤ 0x10FE := by
  rw [skipIf_pc]
  split <;> bv_omega

theorem testKey_skip_pc_le {s : State} (h : s.pc.toNat ≤ 0x1000) (b : Byte) (c : Bool → Bool) :
    Leaves (fun t => t.pc.toNat ≤ 0x10FE) (testKey params.keyOor b s fun down t => .next (skipIf (c down) t)) := by
  obtain ⟨down, t, rfl | rfl, ht⟩ := testKey_cases b s fun down t => .next (skipIf (c down) t)
  · exact ht ▸ leaves_next.2 (skipIf_pc_le h _)
  · exact ht ▸ leaves_next.2 (skipIf_pc_le (s := countDraw s) h _)

/-- R192: `wait-key` leaves `pc` where it is or goes back to itself. -/
theorem execWaitKey_pc_le {s : State} (hlo : 2 ≤ s.pc.toNat) (hpc : s.pc.toNat ≤ 0x10FE) (x : Reg) :
    Leaves (fun t => t.pc.toNat ≤ 0x10FE) (execWaitKey x s) := by
  obtain ⟨b, h⟩ | ⟨k, h⟩ := execWaitKey_cases x s
  · exact h ▸ leaves_next.2 hpc
  · exact h ▸ leaves_next.2 (by simp only [rewind, setPc_pc, setKl_pc]; bv_omega)

/-- R26, R41: a decoded instruction, run where the fetch has left `pc`, keeps the invariant, whether it completes or fails. The
greatest `pc` is that of a `jump-offset` to 0xFFF and 0xFF. -/
theorem exec_keeps_inv {i : Instr} {s : State} (hi : wellFormed i = true) (hs : Inv s) (hlo : 2 ≤ s.pc.toNat)
    (hpc : s.pc.toNat ≤ 0x1000) : Leaves Inv (exec i s) := by
  cases i with
  | ret => exact execReturn_keeps_inv hs
  | call a => exact execCall_keeps_inv hs (toNat_lt_of_addressFits hi) hpc
  | jump a =>
    have ha := toNat_lt_of_addressFits hi
    exact exec_keeps_inv_of_pc (by simp [parts]) hs (leaves_next.2 (by simp only [setPc_pc]; omega))
  | jumpOffset a =>
    have ha := toNat_lt_of_addressFits hi
    exact exec_keeps_inv_of_pc (by simp [parts]) hs (leaves_next.2 (by simp only [setPc_pc, offsetTarget]; bv_omega))
  | skipEqImm | skipNeImm | skipEqReg | skipNeReg =>
    exact exec_keeps_inv_of_pc (by simp [parts]) hs (leaves_next.2 (skipIf_pc_le hpc _))
  | skipIfKey x => exact exec_keeps_inv_of_pc (by simp [parts]) hs (testKey_skip_pc_le hpc _ fun down => down)
  | skipIfNotKey x => exact exec_keeps_inv_of_pc (by simp [parts]) hs (testKey_skip_pc_le hpc _ fun down => !down)
  | waitKey x => exact exec_keeps_inv_of_pc (by simp [parts]) hs (execWaitKey_pc_le hlo hs.pc x)
  | _ => exact exec_keeps_inv_of_no_pc (by simp [parts]) (by simp [parts]) hs

/-! ### One step keeps the invariant -/

/-- Moving `pc` within its range keeps the invariant. -/
theorem inv_setPc {a : Word} {s : State} (hs : Inv s) (ha : a.toNat ≤ 0x10FE) : Inv (setPc a s) :=
  ⟨hs.mem, hs.plen, ha, hs.frames⟩

theorem runOpcode_keeps_inv {s : State} (op : Word) (hs : Inv s) (hpc : s.pc.toNat < 4095) :
    Leaves Inv (runOpcode op s) := by
  have hnext : (s.pc + 2).toNat = s.pc.toNat + 2 := by bv_omega
  have hs' : Inv (setPc (s.pc + 2) s) := inv_setPc hs (by omega)
  unfold runOpcode
  split
  · next i hi =>
    exact exec_keeps_inv (decode_wellFormed hi) hs' (by rw [setPc_pc]; omega) (by rw [setPc_pc]; omega)
  · exact leaves_raise.2 hs'

/-- R200: an advance whose fetch succeeds runs the word at `pc` after the ticks. -/
theorem advance_fetched {s : State} (n : Nat) (h : s.pc.toNat < 4095) :
    advance n s = runOpcode (wordOfBytes (byteAt s s.pc.toNat) (byteAt s (s.pc.toNat + 1))) (ticks n s) := by
  have hread := memReadWord_ok (s := ticks n s) h
  rw [advance, fetch, ticks_pc, hread]
  rfl

/-- R201: a fetch at 0x0FFF or above ends the advance after the ticks (log 25, 28). -/
theorem advance_fetch_error {s : State} (n : Nat) (h : 4095 ≤ s.pc.toNat) :
    advance n s = .fault (.memoryOutOfBounds (max s.pc.toNat 4096) (ticks n s)) := by
  rw [advance, fetch, ticks_pc, memReadWord_error h]

theorem advance_keeps_inv {s : State} (n : Nat) (hs : Inv s) : Leaves Inv (advance n s) := by
  have ht : Inv (ticks n s) := ⟨hs.mem, hs.plen, hs.pc, hs.frames⟩
  rcases Nat.lt_or_ge s.pc.toNat 4095 with hpc | hpc
  · exact advance_fetched n hpc ▸ runOpcode_keeps_inv _ ht hpc
  · exact advance_fetch_error n hpc ▸ leaves_fault.2 ht

/-- R41, R244: a load keeps the invariant, also one that fails (log 30). -/
theorem load_keeps_inv {s : State} (image : List Byte) (hs : Inv s) : Leaves Inv (load image s) := by
  rcases Nat.lt_or_ge 3584 image.length with h | h
  · have hlen : 0x200 + (image.take 3584).length ≤ 4096 := by rw [List.length_take]; omega
    rw [load_fault h]
    exact leaves_fault.2
      ⟨Memory.wf_putBytes hs.mem hlen, Nat.le_of_lt_succ (Nat.mod_lt _ (Nat.succ_pos _)), hs.pc, hs.frames⟩
  · rw [load_next h]
    exact leaves_next.2 ⟨Memory.wf_putBytes hs.mem (by omega), h, hs.pc, hs.frames⟩

/-- R241: what the resets leave, with memory zeroed from some address on, meets the invariant. -/
theorem inv_zeroFrom_of_afterReset {s : State} {low n : Nat} (h : afterReset s) (hm : Memory.wf s.mem = true)
    (hl : low ≤ 4096) (hn : n ≤ Config.programMax) : Inv { zeroFrom low s with plen := n } where
  mem := Memory.wf_zero hm (Nat.le_of_eq (Nat.add_sub_cancel' hl))
  plen := hn
  pc := by
    obtain ⟨hpc, -⟩ := h
    show s.pc.toNat ≤ 0x10FE
    rw [hpc]; decide
  frames := fun j hj => by
    obtain ⟨-, -, -, -, -, hsp, -⟩ := h
    exact absurd (show j.val < s.sp.val from hj) (by rw [hsp]; exact Nat.not_lt_zero j.val)

theorem fullReset_keeps_inv {s : State} (hs : Inv s) : Inv (fullReset s) :=
  inv_zeroFrom_of_afterReset (afterReset_resets s) hs.mem (by decide) (Nat.zero_le _)

theorem lightReload_keeps_inv {s : State} (hs : Inv s) : Inv (lightReload s) :=
  inv_zeroFrom_of_afterReset (afterReset_resets s) hs.mem (Nat.add_le_add_left hs.plen 512) hs.plen

/-- R246: every move of the host keeps the invariant, whether it completes or fails. -/
theorem perform_keeps_inv {s : State} (m : HostMove) (hs : Inv s) : Leaves Inv (perform m s) := by
  cases m with
  | advance n => exact advance_keeps_inv n hs
  | load image => exact load_keeps_inv image hs
  | fullReset => exact leaves_next.2 (fullReset_keeps_inv hs)
  | lightReload => exact leaves_next.2 (lightReload_keeps_inv hs)
  | setKey k down => exact leaves_next.2 ⟨hs.mem, hs.plen, hs.pc, hs.frames⟩
  | syncDisplay => exact leaves_next.2 ⟨hs.mem, hs.plen, hs.pc, hs.frames⟩
  | isSoundActive => exact leaves_next.2 hs

/-- The state a step holds, the next one or the one an error leaves, meets the invariant if the state before does. -/
theorem step_keeps_inv {s : State} (hs : Inv s) : Leaves Inv (step s) := by
  cases h : s.host with
  | nil => rw [step_none_pending h]; exact advance_keeps_inv _ ⟨hs.mem, hs.plen, hs.pc, hs.frames⟩
  | cons m rest => rw [step_pending h]; exact perform_keeps_inv m ⟨hs.mem, hs.plen, hs.pc, hs.frames⟩

/-- Settles O52: the case of a next state of `step_keeps_inv`. -/
theorem stepKeepsInvariant : Obligations.StepKeepsInvariant :=
  fun _ _ hs h => leaves_next.1 (h ▸ step_keeps_inv hs)

end Sys2Proof.Machine
end

section
/-! PROOFS, family 10_state: the parts of the state that an instruction neither reads nor writes. -/

namespace Sys2Proof.Machine

/-! ### Results under a change of the state they hold -/

/-- A fault with a function applied to the state it leaves. -/
def mapFault (f : State → State) : Fault → Fault
  | .memoryOutOfBounds a s => .memoryOutOfBounds a (f s)
  | .unknownInstruction op s => .unknownInstruction op (f s)
  | .stackEmpty s => .stackEmpty (f s)
  | .stackOverflow s => .stackOverflow (f s)
  | .keyOutOfRange b s => .keyOutOfRange b (f s)

theorem mapState_fault (f : State → State) (r : Fault) : mapState f (.fault r) = .fault (mapFault f r) := by
  cases r <;> rfl

/-- A second part that commutes with the change, after a changed first part, is the change of the whole. -/
theorem andThen_mapState {f : State → State} {g : State → Result} (hg : ∀ s, g (f s) = mapState f (g s)) (o : Result) :
    andThen (mapState f o) g = mapState f (andThen o g) := by
  cases o with
  | next s => exact hg s
  | fault r => simp only [mapState_fault, andThen]
  | refused q => rfl

/-! ### Parts that most instructions do not see -/

/-- A change of the latch, `ST`, `DCHG` and `PLEN`, each by itself: the parts that no instruction reads but `wait-key` (R31) and
`draw`, which adds to `DCHG` (R38, R47). -/
structure Veil where
  kl   : Option Key → Option Key
  st   : Byte → Byte
  dchg : Bool → Bool
  plen : Nat → Nat

/-- The state with the change made. -/
def Veil.on (w : Veil) (s : State) : State :=
  { s with kl := w.kl s.kl, st := w.st s.st, dchg := w.dchg s.dchg, plen := w.plen s.plen }

/-- Setting the latch is a veil. -/
def latchVeil (k : Option Key) : Veil := ⟨fun _ => k, id, id, id⟩

/-- Blanking what no instruction reads is a veil. -/
def hideVeil : Veil := ⟨id, fun _ => 0, fun _ => false, fun _ => 0⟩

theorem latchVeil_on (k : Option Key) : (latchVeil k).on = setKl k := rfl

theorem hideVeil_on : hideVeil.on = hide := rfl

section Veiled

variable (w : Veil)

theorem memWrite_veil (a : Nat) (b : Byte) (s : State) : memWrite a b (w.on s) = mapState w.on (memWrite a b s) := by
  unfold memWrite
  split <;> rfl

theorem storeBytes_veil (a : Nat) (bs : List Byte) (s : State) :
    storeBytes a bs (w.on s) = mapState w.on (storeBytes a bs s) := by
  induction bs generalizing a s with
  | nil => rfl
  | cons b bs ih => rw [storeBytes, storeBytes, memWrite_veil, andThen_mapState (ih (a + 1))]

theorem loadBytes_veil (a : Nat) (rs : List Reg) (s : State) :
    loadBytes a rs (w.on s) = mapState w.on (loadBytes a rs s) := by
  induction rs generalizing a s with
  | nil => rfl
  | cons r rs ih =>
    rcases Nat.lt_or_ge a 4096 with h | h
    · simp only [loadBytes, memRead_ok h]
      exact ih (a + 1) (writeV r (byteAt s a) s)
    · simp only [loadBytes, memRead_error h]
      rfl

theorem push_veil (a : Word) (s : State) : push a (w.on s) = mapState w.on (push a s) := by
  rcases Nat.lt_or_ge s.sp.val 16 with h | h
  · rw [push_next h, push_next (s := w.on s) h]; rfl
  · have h' : s.sp.val = 16 := by omega
    rw [push_fault h', push_fault (s := w.on s) h']; rfl

theorem popToPc_veil (s : State) : popToPc (w.on s) = mapState w.on (popToPc s) := by
  by_cases h : s.sp.val = 0
  · rw [popToPc_fault h, popToPc_fault (s := w.on s) h]; rfl
  · rw [popToPc_next h, popToPc_next (s := w.on s) h]; rfl

theorem skipIf_veil (c : Bool) (s : State) : skipIf c (w.on s) = w.on (skipIf c s) := by
  cases c <;> rfl

theorem testKey_veil (b : Byte) (s : State) {go : Bool → State → Result}
    (hgo : ∀ down t, go down (w.on t) = mapState w.on (go down t)) :
    testKey params.keyOor b (w.on s) go = mapState w.on (testKey params.keyOor b s go) := by
  rcases Nat.lt_or_ge b.toNat 16 with h | h
  · rw [testKey_named h, testKey_named h]; exact hgo _ s
  · rw [testKey_unnamed h, testKey_unnamed h]; exact hgo _ (countDraw s)

theorem nextRandom_veil (s : State) : nextRandom (w.on s) = ((nextRandom s).1, w.on (nextRandom s).2) := by
  obtain ⟨b, rest, hr, h⟩ | ⟨hr, h⟩ := nextRandom_state s
  · rw [h, nextRandom, show (w.on s).rndIn = b :: rest from hr]; rfl
  · rw [h, nextRandom, show (w.on s).rndIn = [] from hr]; rfl

theorem execRandom_veil (x : Reg) (nn : Byte) (s : State) :
    execRandom x nn (w.on s) = mapState w.on (execRandom x nn s) := by
  rw [execRandom, nextRandom_veil]; rfl

theorem execCall_veil (a : Word) (s : State) : execCall a (w.on s) = mapState w.on (execCall a s) := by
  have h := push_veil w s.pc s
  rw [execCall, execCall, ← andThen_mapState (fun t => rfl), ← h]; rfl

theorem execSkipIfKey_veil (x : Reg) (s : State) : execSkipIfKey x (w.on s) = mapState w.on (execSkipIfKey x s) :=
  testKey_veil w (readV s x) s fun down t => congrArg _ (skipIf_veil w down t)

theorem execSkipIfNotKey_veil (x : Reg) (s : State) :
    execSkipIfNotKey x (w.on s) = mapState w.on (execSkipIfNotKey x s) :=
  testKey_veil w (readV s x) s fun down t => congrArg _ (skipIf_veil w (!down) t)

theorem execStoreRegs_veil (x : Reg) (s : State) : execStoreRegs x (w.on s) = mapState w.on (execStoreRegs x s) := by
  have h := storeBytes_veil w (effectiveAddress s 0) ((regsUpTo x).map (readV s)) s
  rw [execStoreRegs, execStoreRegs, ← andThen_mapState (fun t => rfl), ← h]; rfl

theorem execLoadRegs_veil (x : Reg) (s : State) : execLoadRegs x (w.on s) = mapState w.on (execLoadRegs x s) := by
  have h := loadBytes_veil w (effectiveAddress s 0) (regsUpTo x) s
  rw [execLoadRegs, execLoadRegs, ← andThen_mapState (fun t => rfl), ← h]; rfl

/-- An instruction that writes none of the veiled parts runs the same under the veil. -/
theorem exec_veil {i : Instr} (hk : Part.latch ∉ parts i) (hst : Part.sound ∉ parts i) (hd : Part.display ∉ parts i)
    (s : State) : exec i (w.on s) = mapState w.on (exec i s) := by
  cases i with
  | clearScreen | draw => simp [parts] at hd
  | setSound => simp [parts] at hst
  | waitKey => simp [parts] at hk
  | ret => exact popToPc_veil w s
  | call a => exact execCall_veil w a s
  | skipEqImm | skipNeImm | skipEqReg | skipNeReg => exact congrArg _ (skipIf_veil w _ s)
  | random x nn => exact execRandom_veil w x nn s
  | skipIfKey x => exact execSkipIfKey_veil w x s
  | skipIfNotKey x => exact execSkipIfNotKey_veil w x s
  | storeBcd x => exact storeBytes_veil w _ _ s
  | storeRegs x => exact execStoreRegs_veil w x s
  | loadRegs x => exact execLoadRegs_veil w x s
  | _ => rfl

end Veiled

/-! ### The key latch -/

/-- `draw` adds to `DCHG`, but the latch is nothing to it. -/
theorem execDraw_setKl (x y : Reg) (n : Nat) (k : Option Key) (s : State) :
    execDraw x y n (setKl k s) = mapState (setKl k) (execDraw x y n s) := by
  by_cases h : n = 0 ∨ s.i.toNat + n ≤ 4096
  · rw [execDraw_next h, execDraw_next (s := setKl k s) h]; rfl
  · rw [execDraw_fault h, execDraw_fault (s := setKl k s) h]; rfl

/-- Settles O49: the latch is a veil to every instruction that does not write it. -/
theorem latchBelongsToWaitKey : Obligations.LatchBelongsToWaitKey := by
  refine ⟨fun i s k hi => ?_, fun s => rfl⟩
  cases i with
  | waitKey x => exact absurd rfl (hi x)
  | clearScreen | setSound => rfl
  | draw x y n => exact execDraw_setKl x y n k s
  | _ =>
    rw [← latchVeil_on]
    exact exec_veil (latchVeil k) (by simp [parts]) (by simp [parts]) (by simp [parts]) s

/-! ### `ST`, `DCHG` and `PLEN` -/

/-- Blanking twice is blanking once. -/
theorem mapState_hide_hide (o : Result) : mapState hide (mapState hide o) = mapState hide o := by
  cases o with
  | next s => rfl
  | fault r => cases r <;> rfl
  | refused q => rfl

theorem execDraw_hide (x y : Reg) (n : Nat) (s : State) :
    mapState hide (execDraw x y n (hide s)) = mapState hide (execDraw x y n s) := by
  by_cases h : n = 0 ∨ s.i.toNat + n ≤ 4096
  · rw [execDraw_next h, execDraw_next (s := hide s) h]; rfl
  · rw [execDraw_fault h, execDraw_fault (s := hide s) h]; rfl

theorem awaitKey_hide (s : State) : awaitKey (hide s) = hide (awaitKey s) := by
  have hlow : lowestKeyDown (hide s) = lowestKeyDown s := rfl
  unfold awaitKey
  rw [hlow]
  cases lowestKeyDown s <;> rfl

theorem execWaitKey_hide (x : Reg) (s : State) : execWaitKey x (hide s) = mapState hide (execWaitKey x s) := by
  cases h : s.kl with
  | none =>
    rw [execWaitKey_unlatched h, execWaitKey_unlatched (s := hide s) h]
    exact congrArg _ (awaitKey_hide s)
  | some k =>
    cases hk : s.key[k] with
    | true => rw [execWaitKey_down h hk, execWaitKey_down (s := hide s) h hk]; rfl
    | false => rw [execWaitKey_up h hk, execWaitKey_up (s := hide s) h hk]; rfl

/-- R47: an instruction may write what is blanked, but reads it only to keep it. -/
theorem exec_hide (i : Instr) (s : State) : mapState hide (exec i (hide s)) = mapState hide (exec i s) := by
  cases i with
  | clearScreen | setSound => rfl
  | draw x y n => exact execDraw_hide x y n s
  | waitKey x => exact (congrArg (mapState hide) (execWaitKey_hide x s)).trans (mapState_hide_hide _)
  | _ =>
    rw [← mapState_hide_hide (exec _ s), ← hideVeil_on]
    exact congrArg _ (exec_veil hideVeil (by simp [parts]) (by simp [parts]) (by simp [parts]) s)

theorem runOpcode_hide (op : Word) (s : State) :
    mapState hide (runOpcode op (hide s)) = mapState hide (runOpcode op s) := by
  unfold runOpcode
  cases decode op with
  | ok i => exact exec_hide i (setPc (s.pc + 2) s)
  | error e => rfl

/-- The ticks of `DT` do not see the blanked `ST`. -/
theorem hide_ticks_hide (n : Nat) (s : State) : hide (ticks n (hide s)) = hide (ticks n s) := rfl

/-- Settles O50: the fetch sees neither the blanking nor the ticks, and what runs after it is the same under the blanking. -/
theorem hiddenStateDoesNotInterfere : Obligations.HiddenStateDoesNotInterfere := by
  intro n s
  rcases Nat.lt_or_ge s.pc.toNat 4095 with h | h
  · rw [advance_fetched n h, advance_fetched (s := hide s) n h, ← runOpcode_hide _ (ticks n s), ← hide_ticks_hide,
      runOpcode_hide]
    rfl
  · rw [advance_fetch_error n h, advance_fetch_error (s := hide s) n h]
    rfl

end Sys2Proof.Machine
end

section
/-! PROOFS, family 20_memory: what the byte sequences leave in memory and in the registers, and which instruction writes which
part of the state. -/

namespace Sys2Proof.Machine

/-! ### Single bytes -/

/-- What differs in memory and `I` only leaves everything else alone. -/
theorem onlyMemAndI_update (m : Memory) (a : Word) (s : State) : onlyMemAndI s { s with mem := m, i := a } :=
  ⟨fun _ => rfl, rfl, ⟨rfl, rfl⟩, ⟨rfl, rfl⟩, rfl, ⟨rfl, rfl⟩, ⟨rfl, rfl, rfl⟩, rfl, rfl⟩

/-- R68: after a write to a canonical memory, its address holds the byte and every other address what it held. -/
theorem byteAt_write {s : State} (hw : Memory.wf s.mem = true) (a p : Nat) (b : Byte) :
    byteAt { s with mem := Memory.write s.mem a b } p = if p = a then b else byteAt s p :=
  Memory.read_write hw a p b

/-- R62: only an address inside the memory is read. -/
theorem lt_of_memRead_ok {a : Nat} {b : Byte} {s : State} (h : memRead a s = .ok b) : a < 4096 := by
  by_contra hlt
  rw [memRead_error (Nat.not_lt.1 hlt)] at h
  cases h

/-- Settles O34: the two cases of the bounds check, with `byteAt_write` where it succeeds. -/
theorem readAfterWrite : Obligations.ReadAfterWrite := by
  refine fun s a b hw => ⟨fun ha => ?_, fun ha => ⟨⟨a, memWrite_fault ha⟩, a, memRead_error ha⟩⟩
  have hne : ∀ p, p ≠ a → byteAt { s with mem := Memory.write s.mem a b } p = byteAt s p := fun p hp => by
    rw [byteAt_write hw, if_neg hp]
  refine ⟨_, memWrite_next ha, ?_, fun p hp hr => ?_, fun p hp => hne p (by omega), onlyMemAndI_update _ _ s, rfl⟩
  · rw [memRead_ok ha, byteAt_write hw, if_pos rfl]
  · rw [memRead_ok (lt_of_memRead_ok hr), hne p hp]

/-! ### Byte sequences stored -/

/-- The state after a byte sequence is stored from `a` on, as far as the memory reaches (R65, R73). -/
def stored (a : Nat) (bs : List Byte) (s : State) : State := { s with mem := putBytes a (bs.take (4096 - a)) s.mem }

/-- Where every byte exists, the store completes; where one does not, `storeBytes_fault` leaves the same. -/
theorem storeBytes_stored {a : Nat} {bs : List Byte} {s : State} (h : a + bs.length ≤ 4096) :
    storeBytes a bs s = .next (stored a bs s) := by
  rw [storeBytes_next h, stored, List.take_of_length_le (by omega)]

/-- R73: an address inside the memory holds the byte of the sequence that falls on it, any other what it held. -/
theorem byteAt_stored {s : State} (hw : Memory.wf s.mem = true) (a : Nat) (bs : List Byte) (p : Nat) :
    byteAt (stored a bs s) p = if a ≤ p ∧ p < 4096 then (bs[p - a]?).getD (byteAt s p) else byteAt s p := by
  rcases Nat.le_total a 4096 with ha | ha
  · have hlen : a + (bs.take (4096 - a)).length ≤ 4096 := by rw [List.length_take]; omega
    have hread : byteAt (stored a bs s) p = _ := read_putBytes hw hlen p
    rw [hread]
    by_cases hp : a ≤ p
    · by_cases hp' : p < 4096
      · rw [if_pos hp, if_pos ⟨hp, hp'⟩, List.getElem?_take_of_lt (by omega)]
        rfl
      · rw [if_pos hp, if_neg (fun h => hp' h.2), List.getElem?_take_eq_none (by omega)]
        rfl
    · rw [if_neg hp, if_neg (fun h => hp h.1)]
      rfl
  · have hnone : stored a bs s = s := by rw [stored, Nat.sub_eq_zero_of_le ha]; rfl
    rw [hnone, if_neg (by omega)]

/-- Byte `k` of the sequence stands at `a + k`, if that address exists. -/
theorem byteAt_stored_of_getElem? {s : State} (hw : Memory.wf s.mem = true) {a k : Nat} {bs : List Byte} {b : Byte}
    (hk : bs[k]? = some b) (hlt : a + k < 4096) : byteAt (stored a bs s) (a + k) = b := by
  rw [byteAt_stored hw, if_pos ⟨Nat.le_add_right a k, hlt⟩, Nat.add_sub_cancel_left, hk]
  rfl

/-- A store that reaches past the memory writes nothing but the bytes from `a` to its end. -/
theorem sameMemOutside_stored {s : State} (hw : Memory.wf s.mem = true) (a : Nat) (bs : List Byte) :
    sameMemOutside a (4096 - a) s (stored a bs s) := fun p hp => by
  rw [byteAt_stored hw, if_neg (by omega)]

theorem stored_onlyMemAndI (a : Nat) (bs : List Byte) (s : State) : onlyMemAndI s (stored a bs s) :=
  onlyMemAndI_update _ s.i s

/-! ### The stores -/

/-- R164, R165: register `V[k]` stands at place `k`. -/
theorem getElem?_regsUpTo {x k : Reg} (h : k ≤ x) : (regsUpTo x)[k.val]? = some k := by
  rw [← idxOf_regsUpTo x k h]
  exact List.getElem?_idxOf ((mem_regsUpTo x k).2 h)

/-- The bytes that `store-regs` stores (R164). -/
def regBytes (x : Reg) (s : State) : List Byte := (regsUpTo x).map (readV s)

theorem regBytes_length (x : Reg) (s : State) : (regBytes x s).length = x.val + 1 := by
  rw [regBytes, List.length_map, regsUpTo_length]

theorem getElem?_regBytes {x k : Reg} (s : State) (h : k ≤ x) : (regBytes x s)[k.val]? = some (readV s k) := by
  rw [regBytes, List.getElem?_map, getElem?_regsUpTo h]
  rfl

theorem execStoreRegs_next {x : Reg} {s : State} (h : s.i.toNat + x.val + 1 ≤ 4096) :
    execStoreRegs x s =
      .next (setI (s.i + BitVec.ofNat 16 (x.val + 1)) (stored (effectiveAddress s 0) (regBytes x s) s)) := by
  have hlen : effectiveAddress s 0 + (regBytes x s).length ≤ 4096 := by
    rw [regBytes_length, effectiveAddress]; omega
  rw [execStoreRegs, ← regBytes, storeBytes_stored hlen]
  rfl

theorem execStoreRegs_fault {x : Reg} {s : State} (h : 4096 < s.i.toNat + x.val + 1) :
    execStoreRegs x s =
      .fault (.memoryOutOfBounds (max s.i.toNat 4096) (stored (effectiveAddress s 0) (regBytes x s) s)) := by
  have hlen := regBytes_length x s
  have hne : regBytes x s ≠ [] := List.ne_nil_of_length_eq_add_one hlen
  rw [execStoreRegs, ← regBytes, storeBytes_fault (by rw [hlen, effectiveAddress]; omega) hne]
  rfl

theorem execStoreBcd_fault {x : Reg} {s : State} (h : 4096 < s.i.toNat + 3) :
    execStoreBcd x s =
      .fault (.memoryOutOfBounds (max s.i.toNat 4096) (stored (effectiveAddress s 0) (bcdDigits (readV s x)) s)) :=
  storeBytes_fault h (List.cons_ne_nil _ _)

/-- Settles O32: both stores fault with `stored`, which holds byte `k` of the sequence at `I + k` where that exists. -/
theorem failingStoreKeepsEarlierBytes : Obligations.FailingStoreKeepsEarlierBytes := by
  refine fun s x hw => ⟨fun h => ?_, fun h => ?_⟩
  · refine ⟨_, execStoreBcd_fault h, stored_onlyMemAndI _ _ s, rfl, fun h0 => ?_, fun h1 => ?_,
      sameMemOutside_stored hw _ _⟩
    · exact (congrArg BitVec.toNat (byteAt_stored_of_getElem? hw (k := 0) rfl h0)).trans
        (Nat.mod_eq_of_lt (by omega))
    · exact (congrArg BitVec.toNat (byteAt_stored_of_getElem? hw (k := 1) rfl h1)).trans
        (Nat.mod_eq_of_lt (by omega))
  · exact ⟨_, execStoreRegs_fault h, stored_onlyMemAndI _ _ s, rfl,
      fun k hk hlt => byteAt_stored_of_getElem? hw (getElem?_regBytes s hk) hlt, sameMemOutside_stored hw _ _⟩

/-- R75, R200: a fetch reads the word at `pc`, whatever the ticks before it. -/
theorem fetch_ticks_ok {s : State} (n : Nat) (h : s.pc.toNat < 4095) :
    fetch (ticks n s) = .ok (wordOfBytes (byteAt s s.pc.toNat) (byteAt s (s.pc.toNat + 1))) :=
  memReadWord_ok (s := ticks n s) h

/-- Settles O35: the fetch reads memory as the store has left it. -/
theorem fetchSeesStoredBytes : Obligations.FetchSeesStoredBytes := by
  intro s x k l hw hfit hlx hlk
  have hlx' : l.val ≤ x.val := hlx
  have hkx : k ≤ x := Fin.le_def.2 (by omega)
  refine ⟨_, execStoreRegs_next hfit, fun n => ?_⟩
  have hpc : (BitVec.ofNat 16 (effectiveAddress s k.val)).toNat = s.i.toNat + k.val := by
    rw [BitVec.toNat_ofNat, effectiveAddress]; omega
  have hk := byteAt_stored_of_getElem? (a := s.i.toNat) hw (getElem?_regBytes s hkx) (by omega)
  have hl := byteAt_stored_of_getElem? (a := s.i.toNat) hw (getElem?_regBytes s hlx) (by omega)
  rw [fetch_ticks_ok n (by rw [setPc_pc, hpc]; omega), setPc_pc, hpc, Nat.add_assoc, ← hlk, ← hk, ← hl]
  rfl

/-! ### Registers loaded -/

/-- R73, R165: of the registers up to `x`, the first `n` are loaded, each from its place; the others are as before. -/
theorem readV_getBytes_take (a n : Nat) (x q : Reg) (s : State) :
    readV (getBytes a ((regsUpTo x).take n) s) q = if q ≤ x ∧ q.val < n then byteAt s (a + q.val) else readV s q := by
  rw [readV_getBytes ((regsUpTo_nodup x).take)]
  by_cases hx : q ≤ x
  · have hmem : q ∈ (regsUpTo x).take n ↔ q.val < n := by
      rw [List.mem_take_iff_idxOf_lt ((mem_regsUpTo x q).2 hx), idxOf_regsUpTo x q hx]
    by_cases hn : q.val < n
    · rw [if_pos (hmem.2 hn), if_pos ⟨hx, hn⟩, (List.take_prefix n _).idxOf_eq_of_mem (hmem.2 hn), idxOf_regsUpTo x q hx]
    · rw [if_neg (mt hmem.1 hn), if_neg (fun h => hn h.2)]
  · rw [if_neg (fun h => hx ((mem_regsUpTo x q).1 (List.mem_of_mem_take h))), if_neg (fun h => hx h.1)]

/-- What differs in the registers and `I` only leaves everything else alone. -/
theorem onlyVAndI_update (v : Vector Byte 16) (a : Word) (s : State) : onlyVAndI s { s with v := v, i := a } :=
  ⟨rfl, ⟨rfl, rfl⟩, ⟨rfl, rfl⟩, rfl, fun _ => rfl, ⟨rfl, rfl⟩, ⟨rfl, rfl, rfl⟩, rfl, rfl⟩

theorem getBytes_onlyVAndI (a : Nat) (rs : List Reg) (s : State) :
    onlyVAndI s (getBytes a rs s) ∧ (getBytes a rs s).i = s.i := by
  obtain ⟨v, hv⟩ := getBytes_frame a rs s
  rw [hv]
  exact ⟨onlyVAndI_update v s.i s, rfl⟩

theorem execLoadRegs_fault {x : Reg} {s : State} (h : 4096 < s.i.toNat + x.val + 1) :
    execLoadRegs x s = .fault (.memoryOutOfBounds (max s.i.toNat 4096)
      (getBytes (effectiveAddress s 0) ((regsUpTo x).take (4096 - s.i.toNat)) s)) := by
  have hlen := regsUpTo_length x
  have hne : regsUpTo x ≠ [] := List.ne_nil_of_length_eq_add_one hlen
  rw [execLoadRegs, loadBytes_fault (by rw [hlen, effectiveAddress]; omega) hne]
  rfl

/-- Settles O33: the registers loaded are those whose bytes exist. -/
theorem failingLoadKeepsEarlierRegisters : Obligations.FailingLoadKeepsEarlierRegisters := by
  intro s x h
  obtain ⟨hframe, hi⟩ := getBytes_onlyVAndI (effectiveAddress s 0) ((regsUpTo x).take (4096 - s.i.toNat)) s
  refine ⟨_, execLoadRegs_fault h, hframe, hi, fun k hk hlt => ?_, fun k hk => ?_⟩
  · rw [effectiveAddress] at hlt
    rw [readV_getBytes_take, if_pos ⟨hk, by omega⟩]
    rfl
  · rw [effectiveAddress, Fin.lt_def] at hk
    rw [readV_getBytes_take, if_neg (by rw [Fin.le_def]; omega)]

/-- Settles O38: every row is read before anything is written. -/
theorem failingDrawChangesNothing : Obligations.FailingDrawChangesNothing :=
  fun _ _ _ _ _ h => execDraw_fault (by omega)

/-! ### The parts of the state that an instruction leaves as they are -/

/-- What a part of the state holds is as before. -/
def samePart : Part → State → State → Prop
  | .reg r, s, t => readV t r = readV s r
  | .index, s, t => t.i = s.i
  | .pc, s, t => t.pc = s.pc
  | .stack, s, t => sameStack s t
  | .delay, s, t => t.dt = s.dt
  | .sound, s, t => t.st = s.st
  | .latch, s, t => t.kl = s.kl
  | .mem, s, t => sameMem s t
  | .display, s, t => sameDisplay s t
  | .supply, s, t => sameSupply s t

theorem samePart_refl (q : Part) (s : State) : samePart q s s := by
  cases q with
  | stack | display | supply => exact ⟨rfl, rfl⟩
  | mem => exact fun _ => rfl
  | _ => rfl

/-- A write of one part keeps what every other part has been since. -/
theorem Write.keeps_samePart {p q : Part} {r s t : State} (h : Write p s t) (hne : q ≠ p) (hs : samePart q r s) :
    samePart q r t := by
  cases h with
  | reg a b =>
    cases q with
    | reg c =>
      have hc : c ≠ a := fun e => hne (e ▸ rfl)
      exact ((readV_writeV a c b s).trans (if_neg hc)).trans hs
    | _ => exact hs
  | _ => cases q <;> first | exact absurd rfl hne | exact hs

/-- Writes leave every part that is not one of theirs as it is. -/
theorem WritesOnly.samePart_of_not_mem {l : List Part} {q : Part} {s t : State} (h : WritesOnly l s t) (hq : q ∉ l) :
    samePart q s t :=
  h.keeps (P := samePart q s) (fun _ hp _ _ hw => hw.keeps_samePart fun e => hq (e ▸ hp)) (samePart_refl q s)

/-- R39, R41, R246: no write changes the keys, `PLEN` or the host's pending moves. -/
theorem WritesOnly.sameHostSide {l : List Part} {s t : State} (h : WritesOnly l s t) : sameHostSide s t := by
  refine h.keeps (P := Machine.sameHostSide s) (fun p _ a b hw hs => ?_) ⟨rfl, rfl, rfl⟩
  cases hw <;> exact hs

/-- Every part is as before an instruction, or it is one of those that the instruction writes. -/
theorem exec_samePart_or_mem {i : Instr} {s t : State} (h : stateAfter (exec i s) = some t) (q : Part) :
    samePart q s t ∨ q ∈ parts i :=
  or_iff_not_imp_right.2 fun hq => (exec_writes_only i s t h).samePart_of_not_mem hq

/-! ### The instructions that write a part -/

section Writers

variable {i : Instr}

/-- R72: memory has two writers. -/
theorem mem_writer (h : Part.mem ∈ parts i) : (∃ x, i = .storeBcd x) ∨ ∃ x, i = .storeRegs x := by
  cases i with
  | storeBcd | storeRegs => simp
  | _ => simp [parts] at h

/-- R37, R38: the grid and its flag have two writers. -/
theorem display_writer (h : Part.display ∈ parts i) : i = .clearScreen ∨ ∃ x y n, i = .draw x y n := by
  cases i with
  | clearScreen | draw => simp
  | _ => simp [parts] at h

/-- R29: the stack has one instruction that pops and one that pushes. -/
theorem stack_writer (h : Part.stack ∈ parts i) : i = .ret ∨ ∃ a, i = .call a := by
  cases i with
  | ret | call => simp
  | _ => simp [parts] at h

/-- R27: the delay timer has one writer; its ticks are no instruction. -/
theorem delay_writer (h : Part.delay ∈ parts i) : ∃ x, i = .setDelay x := by
  cases i with
  | setDelay x => exact ⟨x, rfl⟩
  | _ => simp [parts] at h

/-- R28: the sound timer has one writer; its ticks are no instruction. -/
theorem sound_writer (h : Part.sound ∈ parts i) : ∃ x, i = .setSound x := by
  cases i with
  | setSound x => exact ⟨x, rfl⟩
  | _ => simp [parts] at h

/-- R22: `I` has three instructions of its own and the two block moves. -/
theorem index_writer (h : Part.index ∈ parts i) : (∃ a, i = .setIndex a) ∨
    ∃ x, i = .addIndex x ∨ i = .loadFontAddr x ∨ i = .storeRegs x ∨ i = .loadRegs x := by
  cases i with
  | setIndex | addIndex | loadFontAddr | storeRegs | loadRegs => simp
  | _ => simp [parts] at h

/-- R31: the latch is the micro-state of `wait-key`. -/
theorem latch_writer (h : Part.latch ∈ parts i) : ∃ x, i = .waitKey x := by
  cases i with
  | waitKey x => exact ⟨x, rfl⟩
  | _ => simp [parts] at h

/-- R20, R21: a general register is written as a result, by a block load, or as the flag. -/
theorem reg_writer {r : Reg} (h : Part.reg r ∈ parts i) :
    (∃ x nn, i = .loadImm x nn ∨ i = .addImm x nn ∨ i = .random x nn) ∨
      (∃ x y, i = .set x y ∨ i = .or x y ∨ i = .and x y ∨ i = .xor x y ∨ i = .add x y ∨ i = .sub x y ∨ i = .shr x y ∨
        i = .subn x y ∨ i = .shl x y) ∨
      (∃ x y n, i = .draw x y n) ∨ ∃ x, i = .loadDelay x ∨ i = .waitKey x ∨ i = .loadRegs x := by
  cases i with
  | loadImm | addImm | random | set | or | and | xor | add | sub | shr | subn | shl | draw | loadDelay | waitKey
  | loadRegs => simp
  | _ => simp [parts] at h

/-- Inputs are consumed by `random` (log 12) and by the key skips (log 13). -/
theorem supply_writer (h : Part.supply ∈ parts i) :
    (∃ x nn, i = .random x nn) ∨ ∃ x, i = .skipIfKey x ∨ i = .skipIfNotKey x := by
  cases i with
  | random | skipIfKey | skipIfNotKey => simp
  | _ => simp [parts] at h

end Writers

/-- Settles O47: each part is as before or the instruction is one of its writers. -/
theorem stateIsWrittenOnlyByItsInstructions : Obligations.StateIsWrittenOnlyByItsInstructions := by
  intro i s t h
  have hpart := exec_samePart_or_mem h
  have hregs : sameV s t ∨ ∃ r, Part.reg r ∈ parts i :=
    or_iff_not_imp_right.2 fun hno r => (hpart (.reg r)).resolve_right fun hr => hno ⟨r, hr⟩
  exact ⟨(hpart .mem).imp_right mem_writer, (hpart .display).imp_right display_writer,
    (hpart .stack).imp_right stack_writer, (hpart .delay).imp_right delay_writer,
    (hpart .sound).imp_right sound_writer, (hpart .index).imp_right index_writer,
    (hpart .latch).imp_right latch_writer, hregs.imp_right fun ⟨_, hr⟩ => reg_writer hr,
    (hpart .supply).imp_right supply_writer, (exec_writes_only i s t h).sameHostSide⟩

end Sys2Proof.Machine
end

section
/-! PROOFS, family 30_encoding: the primitive `Extract(op, mask, shift)` of R92 as a quotient and a remainder, and the fields
of R91 as its instances. -/

namespace Sys2Proof

/-- A mask of `len` ones moved up by the shift cuts out `len` bits from bit `shift` on. -/
theorem extract_toNat (op : Word) {mask : Word} {shift len : Nat} (hmask : mask.toNat = (2 ^ len - 1) <<< shift) :
    (extract op mask shift).toNat = op.toNat / 2 ^ shift % 2 ^ len := by
  calc (extract op mask shift).toNat
      = (op.toNat &&& (2 ^ len - 1) <<< shift) >>> shift := by
        rw [extract, BitVec.toNat_ushiftRight, BitVec.toNat_and, hmask]
    _ = op.toNat >>> shift &&& (2 ^ len - 1) := by
        rw [Nat.shiftRight_and_distrib, Nat.shiftLeft_shiftRight]
    _ = op.toNat / 2 ^ shift % 2 ^ len := by
        rw [Nat.and_two_pow_sub_one_eq_mod, Nat.shiftRight_eq_div_pow]

/-- Settles O5: each mask of R92 is a run of ones moved up by its shift, and each field is that quotient and remainder. -/
theorem fieldsAreExtracted : Obligations.FieldsAreExtracted := by
  intro op
  refine ⟨?lead, ?x, ?y, ?n, ?nn, ?nnn⟩
  case lead =>
    have hword : op.toNat < 2 ^ 16 := op.isLt
    rw [fieldLead_toNat, extract_toNat op (len := 4) rfl]; omega
  case x => rw [fieldX_val, extract_toNat op (len := 4) rfl]; omega
  case y => rw [fieldY_val, extract_toNat op (len := 4) rfl]; omega
  case n => rw [fieldN_toNat, extract_toNat op (len := 4) rfl]; omega
  case nn => rw [fieldNN_toNat, extract_toNat op (len := 8) rfl]; omega
  case nnn => rw [fieldNNN_toNat, extract_toNat op (len := 12) rfl]; omega

end Sys2Proof
end

section
/-! PROOFS, family 40_control_transfer: the state that each transfer of control leaves, with the frame on top of the stack named
by its index in `STACK` (decision D29, log 32). -/

namespace Sys2Proof.Machine

/-! ### What a transfer leaves alone -/

theorem onlyPc_setPc (a : Word) (s : State) : onlyPc s (setPc a s) :=
  ⟨fun _ => rfl, rfl, ⟨rfl, rfl⟩, ⟨rfl, rfl⟩, rfl, fun _ => rfl, ⟨rfl, rfl⟩, ⟨rfl, rfl, rfl⟩, rfl, rfl⟩

theorem onlyPcAndStack_update (st : Vector Word 16) (sp : Fin 17) (a : Word) (s : State) :
    onlyPcAndStack s { s with stack := st, sp := sp, pc := a } :=
  ⟨fun _ => rfl, rfl, ⟨rfl, rfl⟩, rfl, fun _ => rfl, ⟨rfl, rfl⟩, ⟨rfl, rfl, rfl⟩, rfl, rfl⟩

/-! ### The call stack -/

/-- R29, R120: with `k + 1` frames, the frame popped is `STACK[k]`. -/
theorem popToPc_frame {s : State} {k : Fin 16} (h : s.sp.val = k.val + 1) :
    popToPc s = .next { s with sp := k.castSucc, pc := s.stack[k] } := by
  rw [popToPc_next (by omega)]
  simp [h, Fin.castSucc, Fin.castAdd, Fin.castLE]

/-- R29, R122: with `k` frames, the address after the call is pushed as `STACK[k]`. -/
theorem execCall_frame {s : State} {k : Fin 16} (a : Word) (h : s.sp.val = k.val) :
    execCall a s = .next { s with stack := s.stack.set k s.pc, sp := k.succ, pc := a } := by
  rw [execCall, push_next (by omega)]
  simp [andThen, setPc, h, Fin.succ]

/-- R205: with sixteen frames, the call ends in the error of the push. -/
theorem execCall_fault {s : State} (a : Word) (h : s.sp.val = 16) : execCall a s = .fault (.stackOverflow s) := by
  rw [execCall, push_fault h, andThen]

/-- Settles O13: a pop with a frame is `popToPc_frame`, without one `popToPc_fault`. -/
theorem returnPopsIntoPc : Obligations.ReturnPopsIntoPc :=
  fun s => ⟨fun _ h => ⟨_, popToPc_frame h, rfl, rfl, rfl, onlyPcAndStack_update _ _ _ s⟩, popToPc_fault⟩

/-- Settles O15: the entry pushed is the only one that `execCall_frame` sets. -/
theorem callPushesReturnAddress : Obligations.CallPushesReturnAddress := by
  refine fun s a => ⟨fun k h => ⟨_, execCall_frame a h, rfl, rfl, ?_, fun j hj => ?_,
    onlyPcAndStack_update _ _ _ s⟩, execCall_fault a⟩
  · exact Vector.getElem_set_self k.isLt
  · exact Vector.getElem_set_ne k.isLt j.isLt fun e => hj (Fin.ext e.symm)

/-- Settles O16: the frame that the call pushes is the one that the return pops, and the frames below it are other entries. -/
theorem returnUndoesCall : Obligations.ReturnUndoesCall := by
  intro s a hlt
  obtain ⟨k, hk⟩ : ∃ k : Fin 16, s.sp.val = k.val := ⟨⟨s.sp.val, hlt⟩, rfl⟩
  have hcall := execCall_frame a hk
  have hret := popToPc_frame (s := { s with stack := s.stack.set k s.pc, sp := k.succ, pc := a }) (Fin.val_succ k)
  refine ⟨_, _, hcall, hret, ?_, Fin.ext hk.symm, fun j hj => ?_, onlyPcAndStack_update _ _ _ s⟩
  · exact Vector.getElem_set_self k.isLt
  · exact Vector.getElem_set_ne k.isLt j.isLt (by omega)

/-! ### Jumps -/

/-- Settles O14: `setPc` is all that the jump does. -/
theorem jumpSetsPc : Obligations.JumpSetsPc := fun s a => ⟨_, rfl, rfl, onlyPc_setPc a s⟩

/-- R123: a 12-bit address and a byte add up to less than 65536, so the sum is exact (decision D23, log 26). -/
theorem offsetTarget_toNat {a : Word} (s : State) (h : a.toNat < 4096) :
    (offsetTarget a s).toNat = a.toNat + (readV s 0).toNat := by
  rw [offsetTarget]
  bv_omega

/-- Settles O17: the target is the exact sum, by `offsetTarget_toNat`. -/
theorem jumpOffsetAddsFirstRegister : Obligations.JumpOffsetAddsFirstRegister :=
  fun s _ h => ⟨_, rfl, offsetTarget_toNat s h, onlyPc_setPc _ s⟩

/-! ### Skips -/

theorem onlyPc_skipIf (c : Bool) (s : State) : onlyPc s (skipIf c s) := skipIf_eq_setPc c s ▸ onlyPc_setPc _ s

/-- R124, R126: a skip on equality, by the values as numbers. -/
theorem skipIf_beq (a b : Byte) (s : State) :
    onlyPc s (skipIf (a == b) s) ∧ (a.toNat = b.toNat → (skipIf (a == b) s).pc = s.pc + 2) ∧
      (a.toNat ≠ b.toNat → (skipIf (a == b) s).pc = s.pc) := by
  refine ⟨onlyPc_skipIf _ s, fun h => ?_, fun h => ?_⟩
  · simp [skipIf_pc, BitVec.toNat_inj.1 h]
  · simp [skipIf_pc, mt (congrArg BitVec.toNat) h]

/-- R125, R127: a skip on difference, by the values as numbers. -/
theorem skipIf_bne (a b : Byte) (s : State) :
    onlyPc s (skipIf (a != b) s) ∧ (a.toNat ≠ b.toNat → (skipIf (a != b) s).pc = s.pc + 2) ∧
      (a.toNat = b.toNat → (skipIf (a != b) s).pc = s.pc) := by
  refine ⟨onlyPc_skipIf _ s, fun h => ?_, fun h => ?_⟩
  · simp [skipIf_pc, mt (congrArg BitVec.toNat) h]
  · simp [skipIf_pc, BitVec.toNat_inj.1 h]

/-- Settles O18: two skips on equality and two on difference, each with an immediate byte or a second register. -/
theorem skipsComparePlainBytes : Obligations.SkipsComparePlainBytes :=
  fun s x y nn => ⟨⟨_, rfl, skipIf_beq _ nn s⟩, ⟨_, rfl, skipIf_bne _ nn s⟩, ⟨_, rfl, skipIf_beq _ (readV s y) s⟩,
    ⟨_, rfl, skipIf_bne (readV s x) _ s⟩⟩

end Sys2Proof.Machine
end

section
/-! PROOFS, family 41_alu: what the writing of a result and then of the flag leaves, the flags by the values as numbers, and the
byte that `random` draws. -/

namespace Sys2Proof.Machine

/-! ### What a register write leaves alone -/

/-- What differs in the registers only leaves everything else alone. -/
theorem onlyV_update (v : Vector Byte 16) (s : State) : onlyV s { s with v := v } :=
  ⟨rfl, rfl, ⟨rfl, rfl⟩, ⟨rfl, rfl⟩, rfl, fun _ => rfl, ⟨rfl, rfl⟩, ⟨rfl, rfl, rfl⟩, rfl, rfl⟩

theorem onlyV_writeV (x : Reg) (b : Byte) (s : State) : onlyV s (writeV x b s) := onlyV_update _ s

@[simp] theorem readV_writeV_self (x : Reg) (b : Byte) (s : State) : readV (writeV x b s) x = b := by
  rw [readV_writeV, if_pos rfl]

theorem readV_writeV_of_ne {x q : Reg} (h : q ≠ x) (b : Byte) (s : State) : readV (writeV x b s) q = readV s q := by
  rw [readV_writeV, if_neg h]

/-- Settles O19: each of the two is one `writeV`. -/
theorem loadImmAndSetWriteOneRegister : Obligations.LoadImmAndSetWriteOneRegister :=
  fun s x y nn => ⟨⟨_, rfl, onlyV_writeV x nn s, fun q => readV_writeV x q nn s⟩,
    ⟨_, rfl, onlyV_writeV x _ s, fun q => readV_writeV x q (readV s y) s⟩⟩

/-- Settles O20: one `writeV` of the sum of two bytes. -/
theorem addImmWrapsWithoutFlag : Obligations.AddImmWrapsWithoutFlag := by
  refine fun s x nn => ⟨_, rfl, onlyV_writeV x _ s, ?_, fun q hq => readV_writeV_of_ne hq _ s⟩
  rw [readV_writeV_self, BitVec.toNat_add]

/-! ### A result and then the flag -/

section ResultThenFlag

variable (x : Reg) (result flag : Byte) (s : State)

theorem onlyV_writeResultThenFlag : onlyV s (writeResultThenFlag x result flag s) := onlyV_update _ s

/-- R140: the flag is written last, so it is there for every `x` (log 16). -/
@[simp] theorem readV_writeResultThenFlag_vF : readV (writeResultThenFlag x result flag s) vF = flag := by
  rw [readV_writeResultThenFlag, if_pos rfl]

theorem readV_writeResultThenFlag_self (h : x ≠ vF) : readV (writeResultThenFlag x result flag s) x = result := by
  rw [readV_writeResultThenFlag, if_neg h, if_pos rfl]

theorem readV_writeResultThenFlag_of_ne (q : Reg) (hF : q ≠ vF) (hx : q ≠ x) :
    readV (writeResultThenFlag x result flag s) q = readV s q := by
  rw [readV_writeResultThenFlag, if_neg hF, if_neg hx]

end ResultThenFlag

/-! ### The flags -/

theorem flagByte_toNat (c : Bool) : (flagByte c).toNat = c.toNat := by
  cases c <;> rfl

theorem carryFlag_eq_one {a b : Byte} (h : 255 < a.toNat + b.toNat) : carryFlag a b = 1 := by
  rw [carryFlag, decide_eq_true h]; rfl

theorem carryFlag_eq_zero {a b : Byte} (h : a.toNat + b.toNat ≤ 255) : carryFlag a b = 0 := by
  rw [carryFlag, decide_eq_false (Nat.not_lt.2 h)]; rfl

/-- With flag 0 at equality (decision D13, log 17), the flag of a subtraction is the strict comparison. -/
theorem minuendGreaterFlag_params (a b : Byte) :
    minuendGreaterFlag params.subEqFlag a b = flagByte (decide (b.toNat < a.toNat)) := by
  rw [minuendGreaterFlag]
  split
  · next heq => rw [heq, decide_eq_false (Nat.lt_irrefl _)]; rfl
  · rfl

theorem minuendGreaterFlag_eq_one {a b : Byte} (h : b.toNat < a.toNat) : minuendGreaterFlag params.subEqFlag a b = 1 := by
  rw [minuendGreaterFlag_params, decide_eq_true h]; rfl

theorem minuendGreaterFlag_eq_zero {a b : Byte} (h : a.toNat ≤ b.toNat) : minuendGreaterFlag params.subEqFlag a b = 0 := by
  rw [minuendGreaterFlag_params, decide_eq_false (Nat.not_lt.2 h)]; rfl

/-- R150: bit 0 is the remainder that the halving drops. -/
theorem shiftedOutRight_toNat (b : Byte) : (shiftedOutRight b).toNat = b.toNat % 2 := by
  rw [shiftedOutRight, flagByte_toNat, BitVec.getLsbD, Nat.toNat_testBit, Nat.pow_zero, Nat.div_one]

/-- R151: bit 7 is the quotient by 128, a byte being below 256. -/
theorem shiftedOutLeft_toNat (b : Byte) : (shiftedOutLeft b).toNat = b.toNat / 128 := by
  have hb : b.toNat < 2 ^ 8 := b.isLt
  rw [shiftedOutLeft, flagByte_toNat, BitVec.getLsbD, Nat.toNat_testBit]
  omega

/-! ### Logic -/

/-- R144 to R146: a result given by its bits, and flag 0. -/
theorem logic_effect (x : Reg) (s : State) {result : Byte} {bit : Nat → Bool} (hbit : ∀ j, result.getLsbD j = bit j)
    {t : State} (ht : writeResultThenFlag x result logicFlag s = t) :
    onlyV s t ∧ readV t vF = 0 ∧ (∀ q, q ≠ vF → q ≠ x → readV t q = readV s q) ∧
      (x ≠ vF → ∀ j, (readV t x).getLsbD j = bit j) := by
  subst ht
  refine ⟨onlyV_writeResultThenFlag x _ _ s, readV_writeResultThenFlag_vF x _ _ s,
    readV_writeResultThenFlag_of_ne x _ _ s, fun hx j => ?_⟩
  rw [readV_writeResultThenFlag_self x _ _ s hx, hbit]

/-- Settles O21: the three differ in the bits of their result only. -/
theorem logicOperationsResetFlag : Obligations.LogicOperationsResetFlag :=
  fun s x _ => ⟨⟨_, rfl, logic_effect x s (fun _ => BitVec.getLsbD_or) rfl⟩,
    ⟨_, rfl, logic_effect x s (fun _ => BitVec.getLsbD_and) rfl⟩,
    ⟨_, rfl, logic_effect x s (fun _ => BitVec.getLsbD_xor) rfl⟩⟩

/-! ### Addition and subtraction -/

/-- Settles O22: the result is a sum of two bytes, the flag `carryFlag`. -/
theorem addSetsCarry : Obligations.AddSetsCarry := by
  refine fun s x y => ⟨_, rfl, onlyV_writeResultThenFlag x _ _ s, fun h => ?_, fun h => ?_, fun hx => ?_,
    readV_writeResultThenFlag_of_ne x _ _ s⟩
  · rw [readV_writeResultThenFlag_vF, carryFlag_eq_one h]
  · rw [readV_writeResultThenFlag_vF, carryFlag_eq_zero h]
  · rw [readV_writeResultThenFlag_self x _ _ s hx, BitVec.toNat_add]

/-- The difference of two bytes, by the values as numbers. -/
theorem toNat_sub_byte (a b : Byte) : (a - b).toNat = (a.toNat + 256 - b.toNat) % 256 := by
  have hb : b.toNat < 256 := b.isLt
  rw [BitVec.toNat_sub]
  omega

/-- R148, R149: a difference in `V[x]`, and the strict comparison in the flag (log 17). -/
theorem subtraction_effect (x : Reg) (a b : Byte) (s : State) {t : State}
    (ht : writeResultThenFlag x (a - b) (minuendGreaterFlag params.subEqFlag a b) s = t) :
    onlyV s t ∧ (b.toNat < a.toNat → readV t vF = 1) ∧ (a.toNat ≤ b.toNat → readV t vF = 0) ∧
      (x ≠ vF → (readV t x).toNat = (a.toNat + 256 - b.toNat) % 256) ∧
      (∀ q, q ≠ vF → q ≠ x → readV t q = readV s q) := by
  subst ht
  refine ⟨onlyV_writeResultThenFlag x _ _ s, fun h => ?_, fun h => ?_, fun hx => ?_,
    readV_writeResultThenFlag_of_ne x _ _ s⟩
  · rw [readV_writeResultThenFlag_vF, minuendGreaterFlag_eq_one h]
  · rw [readV_writeResultThenFlag_vF, minuendGreaterFlag_eq_zero h]
  · rw [readV_writeResultThenFlag_self x _ _ s hx, toNat_sub_byte]

/-- Settles O23: `sub` and `subn` are one subtraction with minuend and subtrahend exchanged. -/
theorem subtractionsFlagStrictlyGreater : Obligations.SubtractionsFlagStrictlyGreater :=
  fun s x y => ⟨⟨_, rfl, subtraction_effect x (readV s x) (readV s y) s rfl⟩,
    ⟨_, rfl, subtraction_effect x (readV s y) (readV s x) s rfl⟩⟩

/-! ### Shifts -/

theorem toNat_shiftRight_one (b : Byte) : (b >>> 1).toNat = b.toNat / 2 := by
  rw [BitVec.toNat_ushiftRight, Nat.shiftRight_eq_div_pow, Nat.pow_one]

theorem toNat_shiftLeft_one (b : Byte) : (b <<< 1).toNat = b.toNat * 2 % 256 := by
  rw [BitVec.toNat_shiftLeft, Nat.shiftLeft_eq, Nat.pow_one]

/-- Settles O24: the shifted byte and the bit shifted out of it, both of `V[y]`. -/
theorem shiftsReadSecondRegister : Obligations.ShiftsReadSecondRegister := by
  refine fun s x y => ⟨⟨_, rfl, onlyV_writeResultThenFlag x _ _ s, ?_, fun hx => ?_,
    readV_writeResultThenFlag_of_ne x _ _ s⟩,
    ⟨_, rfl, onlyV_writeResultThenFlag x _ _ s, ?_, fun hx => ?_, readV_writeResultThenFlag_of_ne x _ _ s⟩⟩
  · rw [readV_writeResultThenFlag_vF, shiftedOutRight_toNat]
  · rw [readV_writeResultThenFlag_self x _ _ s hx, toNat_shiftRight_one]
  · rw [readV_writeResultThenFlag_vF, shiftedOutLeft_toNat]
  · rw [readV_writeResultThenFlag_self x _ _ s hx, toNat_shiftLeft_one]

/-! ### The random byte -/

/-- R152: a byte lined up on the input is the one drawn (log 12). -/
theorem nextRandom_pending {s : State} {b : Byte} {rest : List Byte} (h : s.rndIn = b :: rest) :
    nextRandom s = (b, { s with rndIn := rest }) := by
  rw [nextRandom, h]

/-- R152: with no byte lined up, the byte drawn is a free value (log 12). -/
theorem nextRandom_none {s : State} (h : s.rndIn = []) : nextRandom s = (Config.freeRandom s.draws, countDraw s) := by
  rw [nextRandom, h]

/-- Drawing a byte leaves everything but the supply of inputs as it is. -/
theorem nextRandom_frame (s : State) : ∃ l n, (nextRandom s).2 = { s with rndIn := l, draws := n } := by
  obtain ⟨b, rest, _, h⟩ | ⟨_, h⟩ := nextRandom_state s
  · exact ⟨rest, s.draws, by rw [h]⟩
  · exact ⟨s.rndIn, s.draws + 1, by rw [h]; rfl⟩

/-- Settles O25: the byte drawn is the one of `nextRandom`, whose state is the frame. -/
theorem randomMasksDrawnByte : Obligations.RandomMasksDrawnByte := by
  intro s x nn
  obtain ⟨l, n, hframe⟩ := nextRandom_frame s
  refine ⟨_, (nextRandom s).1, rfl, fun q => ?reads, fun j hj => ?mask, fun b rest h => ?pending, fun h => ?free, ?frame⟩
  case reads => rw [readV_writeV, hframe]; rfl
  case mask => rw [readV_writeV_self, BitVec.getLsbD_and, hj, Bool.and_false]
  case pending => rw [nextRandom_pending h]; exact ⟨rfl, rfl, rfl⟩
  case free => rw [nextRandom_none h]; exact ⟨rfl, h, rfl⟩
  case frame =>
    rw [hframe]
    exact ⟨rfl, rfl, ⟨rfl, rfl⟩, ⟨rfl, rfl⟩, rfl, fun _ => rfl, ⟨rfl, rfl⟩, rfl, rfl, rfl⟩

end Sys2Proof.Machine
end

section
/-! PROOFS, family 42_index_memory: the index as a number, and what a store or a load leaves where every byte it reaches exists
(R163 to R166). -/

namespace Sys2Proof.Machine

/-! ### A byte sequence stored whole -/

/-- R73: a store writes no byte outside those that its sequence covers. -/
theorem sameMemOutside_stored_length {s : State} (hw : Memory.wf s.mem = true) (a : Nat) (bs : List Byte) :
    sameMemOutside a bs.length s (stored a bs s) := by
  intro p hp
  rw [byteAt_stored hw]
  split
  · next hin =>
    rw [List.getElem?_eq_none (by omega)]
    rfl
  · rfl

/-- R163: where the three bytes exist, `store-bcd` completes. -/
theorem execStoreBcd_next {x : Reg} {s : State} (h : s.i.toNat + 3 ≤ 4096) :
    execStoreBcd x s = .next (stored (effectiveAddress s 0) (bcdDigits (readV s x)) s) :=
  storeBytes_stored h

/-- A number below 256 is stored in a byte as it is. -/
theorem byteAt_stored_toNat {s : State} (hw : Memory.wf s.mem = true) {a k n : Nat} {bs : List Byte}
    (hk : bs[k]? = some (BitVec.ofNat 8 n)) (hn : n < 256) (hlt : a + k < 4096) :
    (byteAt (stored a bs s) (a + k)).toNat = n := by
  rw [byteAt_stored_of_getElem? hw hk hlt, BitVec.toNat_ofNat, Nat.mod_eq_of_lt hn]

/-- Settles O29: each digit fits a byte, and stands at its place of the sequence. -/
theorem storeBcdWritesThreeDigits : Obligations.StoreBcdWritesThreeDigits := by
  intro s x hw hfit
  refine ⟨_, execStoreBcd_next hfit, stored_onlyMemAndI _ _ s, rfl, ?hundreds, ?tens, ?ones,
    sameMemOutside_stored_length hw _ (bcdDigits (readV s x))⟩
  case hundreds => exact byteAt_stored_toNat hw (a := s.i.toNat) (k := 0) rfl (by omega) (by omega)
  case tens => exact byteAt_stored_toNat hw (a := s.i.toNat) (k := 1) rfl (by omega) (by omega)
  case ones => exact byteAt_stored_toNat hw (a := s.i.toNat) (k := 2) rfl (by omega) (by omega)

/-! ### The index moved past a block -/

/-- R164, R165: where the block ends inside the memory, the move of the index does not wrap. -/
theorem index_past_toNat {a : Word} {x : Reg} (h : a.toNat + x.val + 1 ≤ 4096) :
    (a + BitVec.ofNat 16 (x.val + 1)).toNat = a.toNat + x.val + 1 := by
  rw [BitVec.toNat_add, BitVec.toNat_ofNat]
  omega

/-- Settles O30: the bytes are those of `regBytes`, one for each register up to `x`. -/
theorem storeRegsWritesBlock : Obligations.StoreRegsWritesBlock := by
  intro s x hw hfit
  refine ⟨_, execStoreRegs_next hfit, onlyMemAndI_update _ _ s, index_past_toNat hfit, fun k hk => ?written, ?outside⟩
  case written =>
    have hkx : k.val ≤ x.val := hk
    exact byteAt_stored_of_getElem? hw (a := s.i.toNat) (getElem?_regBytes s hk) (by omega)
  case outside => exact regBytes_length x s ▸ sameMemOutside_stored_length hw _ (regBytes x s)

/-! ### The registers loaded whole -/

/-- R165: of all registers, those up to `x` are loaded, each from its place. -/
theorem readV_getBytes_regsUpTo (a : Nat) (x q : Reg) (s : State) :
    readV (getBytes a (regsUpTo x) s) q = if q ≤ x then byteAt s (a + q.val) else readV s q := by
  have hwhole : (regsUpTo x).take (x.val + 1) = regsUpTo x := List.take_of_length_le (regsUpTo_length x).le
  simpa only [hwhole, Nat.lt_succ_iff, ← Fin.le_def, and_self] using readV_getBytes_take a (x.val + 1) x q s

/-- R165: where every byte exists, `load-regs` completes. -/
theorem execLoadRegs_next {x : Reg} {s : State} (h : s.i.toNat + x.val + 1 ≤ 4096) :
    execLoadRegs x s =
      .next (setI (s.i + BitVec.ofNat 16 (x.val + 1)) (getBytes (effectiveAddress s 0) (regsUpTo x) s)) := by
  have hlen : effectiveAddress s 0 + (regsUpTo x).length ≤ 4096 := by
    rw [regsUpTo_length, effectiveAddress]; omega
  have hi : (getBytes (effectiveAddress s 0) (regsUpTo x) s).i = s.i := (getBytes_onlyVAndI _ _ s).2
  rw [execLoadRegs, loadBytes_next hlen, andThen, advanceIndex, hi]

/-- Settles O31: a load writes registers only, and the index is moved after it. -/
theorem loadRegsReadsBlock : Obligations.LoadRegsReadsBlock := by
  intro s x hfit
  refine ⟨_, execLoadRegs_next hfit, (getBytes_onlyVAndI _ _ s).1, index_past_toNat hfit, fun k hk => ?loaded,
    fun k hk => ?above⟩
  case loaded => exact (readV_getBytes_regsUpTo _ x k s).trans (if_pos hk)
  case above => exact (readV_getBytes_regsUpTo _ x k s).trans (if_neg (Fin.not_le.2 hk))

/-! ### The index alone -/

/-- A new index leaves everything else alone. -/
theorem onlyI_setI (a : Word) (s : State) : onlyI s (setI a s) :=
  ⟨fun _ => rfl, rfl, ⟨rfl, rfl⟩, ⟨rfl, rfl⟩, rfl, fun _ => rfl, ⟨rfl, rfl⟩, ⟨rfl, rfl, rfl⟩, rfl, rfl⟩

/-- Settles O26: `setI` is all that the instruction does. -/
theorem setIndexWritesAddress : Obligations.SetIndexWritesAddress := fun s a => ⟨_, rfl, rfl, onlyI_setI a s⟩

/-- R161: a byte added to the index as a number, at 16 bits. -/
theorem toNat_add_setWidth (a : Word) (b : Byte) : (a + b.setWidth 16).toNat = (a.toNat + b.toNat) % 65536 := by
  rw [BitVec.toNat_add, BitVec.toNat_setWidth, Nat.add_mod_mod]

/-- Settles O27: the sum is that of words, by `toNat_add_setWidth`. -/
theorem addIndexWrapsAtSixteenBits : Obligations.AddIndexWrapsAtSixteenBits :=
  fun s x => ⟨_, rfl, toNat_add_setWidth s.i (readV s x), onlyI_setI _ s⟩

/-- R162: a byte has its glyph address unreduced, five times 255 being below 65536 (log 20). -/
theorem glyphAddress_toNat (b : Byte) : (glyphAddress b).toNat = Config.fontBase + b.toNat * 5 := by
  have hb : b.toNat < 256 := b.isLt
  rw [glyphAddress, BitVec.toNat_ofNat]
  exact Nat.mod_eq_of_lt (by simp only [Config.fontBase, Config.fontGlyphBytes]; omega)

/-- Settles O28: the index written is the glyph address, by `glyphAddress_toNat`. -/
theorem loadFontAddrScalesByFive : Obligations.LoadFontAddrScalesByFive :=
  fun s x => ⟨_, rfl, glyphAddress_toNat (readV s x), onlyI_setI _ s⟩

end Sys2Proof.Machine
end

section
/-! PROOFS, family 43_display: what `draw` and `clear-screen` leave, pixel by pixel, in the flag and in `DCHG`, and what
a second draw of the same sprite undoes (R180 to R183). -/

namespace Sys2Proof.Machine

/-- What differs in the registers and the display only leaves everything else alone. -/
theorem onlyVAndDisplay_update (v : Vector Byte 16) (d : Display) (c : Bool) (s : State) :
    onlyVAndDisplay s { s with v := v, disp := d, dchg := c } :=
  ⟨rfl, rfl, ⟨rfl, rfl⟩, ⟨rfl, rfl⟩, rfl, fun _ => rfl, ⟨rfl, rfl, rfl⟩, rfl, rfl⟩

/-- Settles O36: `setDisplay` of the blank grid is all that the instruction does. -/
theorem clearScreenBlanksDisplay : Obligations.ClearScreenBlanksDisplay :=
  fun s => ⟨_, rfl, fun r c _ _ => testPixel_blank r c, rfl, fun _ => rfl, onlyVAndDisplay_update s.v _ _ s⟩

/-! ### One draw -/

/-- The pixels under a 1 bit of the rows drawn at `V[x]` and `V[y]`, the start coordinates taken modulo the sides of the
grid (R181). -/
def spriteOver (x y : Reg) (rows : List Byte) (s : State) : Nat → Nat → Bool :=
  spritePixel ((readV s y).toNat % 32) ((readV s x).toNat % 64) rows

section DrawSprite

variable (x y : Reg) (rows : List Byte) (s : State)

theorem onlyVAndDisplay_drawSprite : onlyVAndDisplay s (drawSprite x y rows s) := onlyVAndDisplay_update _ _ _ s

theorem testPixel_drawSprite {r c : Nat} (hr : r < 32) (hc : c < 64) :
    testPixel (drawSprite x y rows s).disp r c = (testPixel s.disp r c ^^ spriteOver x y rows s r c) :=
  testPixel_plotRows _ _ rows _ hr hc

theorem readV_drawSprite_of_ne {q : Reg} (h : q ≠ vF) : readV (drawSprite x y rows s) q = readV s q :=
  readV_writeV_of_ne h _ _

/-- R181: `DCHG` is raised exactly when a pixel is toggled (log 24). -/
theorem drawSprite_dchg :
    (drawSprite x y rows s).dchg = true ↔ s.dchg = true ∨ ∃ r c, r < 32 ∧ c < 64 ∧ spriteOver x y rows s r c = true := by
  have htoggled := (plotRows_drawn (spriteRow (readV s y)) (spriteColumn (readV s x)) rows ⟨s.disp, false, false⟩).toggled
  simp only [Bool.false_eq_true, false_or] at htoggled
  exact Bool.or_eq_true_iff.trans (or_congr_right htoggled)

/-- R181: the flag tells whether an on pixel lay under a 1 bit of the sprite. -/
theorem readV_drawSprite_vF : ∃ hit, readV (drawSprite x y rows s) vF = flagByte hit ∧
    (hit = true ↔ ∃ r c, r < 32 ∧ c < 64 ∧ spriteOver x y rows s r c = true ∧ testPixel s.disp r c = true) := by
  have hhit := (plotRows_drawn (spriteRow (readV s y)) (spriteColumn (readV s x)) rows ⟨s.disp, false, false⟩).hit
  simp only [Bool.false_eq_true, false_or] at hhit
  exact ⟨_, readV_writeV_self vF _ _, hhit⟩

variable {x y rows s}

theorem readV_drawSprite_vF_eq_one
    (h : ∃ r c, r < 32 ∧ c < 64 ∧ spriteOver x y rows s r c = true ∧ testPixel s.disp r c = true) :
    readV (drawSprite x y rows s) vF = 1 := by
  obtain ⟨hit, hflag, hiff⟩ := readV_drawSprite_vF x y rows s
  rw [hflag, hiff.2 h]; rfl

theorem readV_drawSprite_vF_eq_zero
    (h : ∀ r c, r < 32 → c < 64 → spriteOver x y rows s r c = true → testPixel s.disp r c = false) :
    readV (drawSprite x y rows s) vF = 0 := by
  obtain ⟨hit, hflag, hiff⟩ := readV_drawSprite_vF x y rows s
  have hmiss : hit = false := by
    refine Bool.eq_false_iff.2 fun hhit => ?_
    obtain ⟨r, c, hr, hc, hon, hlit⟩ := hiff.1 hhit
    exact absurd hlit (Bool.eq_false_iff.1 (h r c hr hc hon))
  rw [hflag, hmiss]; rfl

end DrawSprite

/-- Settles O37: `draw` completes with `drawSprite`, and each clause is one of the rules about it. -/
theorem drawTogglesSpritePixels : Obligations.DrawTogglesSpritePixels :=
  fun s x y n hfit => ⟨_, spriteOver x y (bytesFrom s (effectiveAddress s 0) n) s, rfl, execDraw_next hfit,
    onlyVAndDisplay_drawSprite x y _ s, fun _ _ => testPixel_drawSprite x y _ s, fun _ => readV_drawSprite_of_ne x y _ s,
    readV_drawSprite_vF_eq_one, readV_drawSprite_vF_eq_zero, drawSprite_dchg x y _ s⟩

/-! ### The same sprite again -/

/-- A draw leaves the rows of a sprite in memory as they are. -/
theorem bytesFrom_drawSprite (x y : Reg) (rows : List Byte) (s : State) (a n : Nat) :
    bytesFrom (drawSprite x y rows s) a n = bytesFrom s a n := rfl

/-- R183: with neither coordinate in the flag register, the sprite lies over the same pixels after a draw. -/
theorem spriteOver_drawSprite {x y : Reg} (hx : x ≠ vF) (hy : y ≠ vF) (rows : List Byte) (s : State) :
    spriteOver x y rows (drawSprite x y rows s) = spriteOver x y rows s := by
  rw [spriteOver, readV_drawSprite_of_ne x y rows s hx, readV_drawSprite_of_ne x y rows s hy, spriteOver]

/-- R183: each pixel is combined with the same bit twice. -/
theorem drawSprite_twice_disp {x y : Reg} (hx : x ≠ vF) (hy : y ≠ vF) (rows : List Byte) (s : State) :
    (drawSprite x y rows (drawSprite x y rows s)).disp = s.disp := by
  refine display_ext fun r c hr hc => ?_
  rw [testPixel_drawSprite _ _ _ _ hr hc, spriteOver_drawSprite hx hy, testPixel_drawSprite _ _ _ _ hr hc,
    Bool.xor_assoc, Bool.xor_self, Bool.xor_false]

/-- A pixel under a 1 bit of the sprite is on after the draw exactly when it was off before. -/
theorem testPixel_drawSprite_of_on {x y : Reg} {rows : List Byte} {s : State} {r c : Nat} (hr : r < 32) (hc : c < 64)
    (hon : spriteOver x y rows s r c = true) : testPixel (drawSprite x y rows s).disp r c = !testPixel s.disp r c := by
  rw [testPixel_drawSprite x y rows s hr hc, hon, Bool.xor_true]

/-- A pixel that a draw turns on lies under a 1 bit of the sprite. -/
theorem spriteOver_of_turned_on {x y : Reg} {rows : List Byte} {s : State} {r c : Nat} (hr : r < 32) (hc : c < 64)
    (hoff : testPixel s.disp r c = false) (hlit : testPixel (drawSprite x y rows s).disp r c = true) :
    spriteOver x y rows s r c = true := by
  rwa [testPixel_drawSprite x y rows s hr hc, hoff, Bool.false_xor] at hlit

/-- Settles O39: the second draw is `drawSprite` with the rows of the first; the pixels that it finds on under the sprite are
those that the first turned on. -/
theorem doubleDrawRestoresDisplay : Obligations.DoubleDrawRestoresDisplay := by
  intro s x y n hfit hx hy
  have hsame := spriteOver_drawSprite hx hy (bytesFrom s (effectiveAddress s 0) n) s
  refine ⟨_, _, execDraw_next hfit, execDraw_next hfit, drawSprite_twice_disp hx hy _ s, ?turnedOn, ?noneTurnedOn⟩
  case turnedOn =>
    rintro ⟨r, c, hr, hc, hoff, hlit⟩
    have hon := spriteOver_of_turned_on hr hc hoff hlit
    exact readV_drawSprite_vF_eq_one ⟨r, c, hr, hc, (congrFun₂ hsame r c).trans hon, hlit⟩
  case noneTurnedOn =>
    refine fun hkept => readV_drawSprite_vF_eq_zero fun r c hr hc hon => Bool.eq_false_iff.2 fun hlit => ?_
    have htoggled := testPixel_drawSprite_of_on hr hc ((congrFun₂ hsame r c).symm.trans hon)
    rw [hlit, hkept r c hr hc hlit] at htoggled
    exact absurd htoggled (by decide)

end Sys2Proof.Machine
end

section
/-! PROOFS, family 44_keys_timers: what the key skips, the polls of `wait-key` and the copies of the timers leave, and how long a
tone lasts (R190 to R195, R217). -/

namespace Sys2Proof.Machine

/-! ### The key skips -/

/-- R190, R191: a value that names a key reads that key. -/
theorem testKey_key {b : Byte} {k : Key} (h : b.toNat = k.val) (s : State) (go : Bool → State → Result) :
    testKey params.keyOor b s go = go s.key[k] s := by
  rw [testKey_named (h.trans_lt k.isLt)]
  simp only [h, Fin.getElem_fin]

theorem execSkipIfKey_key {x : Reg} {s : State} {k : Key} (h : (readV s x).toNat = k.val) :
    execSkipIfKey x s = .next (skipIf s.key[k] s) :=
  testKey_key h s _

theorem execSkipIfNotKey_key {x : Reg} {s : State} {k : Key} (h : (readV s x).toNat = k.val) :
    execSkipIfNotKey x s = .next (skipIf (!s.key[k]) s) :=
  testKey_key h s _

/-- R190: a value that names no key reads a free value (log 13). -/
theorem execSkipIfKey_unnamed {x : Reg} {s : State} (h : 16 ≤ (readV s x).toNat) :
    execSkipIfKey x s = .next (skipIf (Config.freeKeyState (readV s x) s.key s.draws) (countDraw s)) :=
  testKey_unnamed h

/-- R191: a value that names no key reads the same free value (log 13). -/
theorem execSkipIfNotKey_unnamed {x : Reg} {s : State} (h : 16 ≤ (readV s x).toNat) :
    execSkipIfNotKey x s = .next (skipIf (!Config.freeKeyState (readV s x) s.key s.draws) (countDraw s)) :=
  testKey_unnamed h

/-- R191: `pc` after a skip on the opposite of a condition. -/
theorem skipIf_not_pc (c : Bool) (s : State) : (skipIf (!c) s).pc = if c then s.pc else s.pc + 2 := by
  cases c <;> rfl

/-- Settles O40: a skip on the key named or, with no key named, on the free value, which is the same for both (log 13). -/
theorem keySkipsTestNamedKey : Obligations.KeySkipsTestNamedKey := by
  refine fun s x => ⟨fun k hk => ⟨?key, ?notKey⟩, fun h => ?unnamed⟩
  case key =>
    refine ⟨_, execSkipIfKey_key hk, onlyPc_skipIf _ s, fun hdown => ?_, fun hup => ?_⟩
    · rw [skipIf_pc, hdown, if_pos rfl]
    · rw [skipIf_pc, hup, if_neg Bool.false_ne_true]
  case notKey =>
    refine ⟨_, execSkipIfNotKey_key hk, onlyPc_skipIf _ s, fun hup => ?_, fun hdown => ?_⟩
    · rw [skipIf_not_pc, hup, if_neg Bool.false_ne_true]
    · rw [skipIf_not_pc, hdown, if_pos rfl]
  case unnamed =>
    exact ⟨_, _, _, execSkipIfKey_unnamed h, execSkipIfNotKey_unnamed h, rfl, onlyPc_skipIf _ _, onlyPc_skipIf _ _,
      skipIf_pc _ (countDraw s), skipIf_not_pc _ (countDraw s)⟩

/-! ### The polls of `wait-key` -/

/-- R40: the key down that has no key down below it is the one that the scan finds. -/
theorem lowestKeyDown_eq_some {s : State} {k : Key} (hk : s.key[k] = true) (hlow : ∀ j : Key, j < k → s.key[j] = false) :
    lowestKeyDown s = some k := by
  cases h : lowestKeyDown s with
  | none => exact absurd hk (Bool.eq_false_iff.1 (lowestKeyDown_none.1 h k))
  | some j =>
    obtain ⟨hj, hjlow⟩ := lowestKeyDown_some h
    have hle : k ≤ j := Fin.not_lt.1 fun hlt => absurd hj (Bool.eq_false_iff.1 (hlow j hlt))
    have hge : j ≤ k := Fin.not_lt.1 fun hlt => absurd hk (Bool.eq_false_iff.1 (hjlow k hlt))
    rw [Fin.le_antisymm hge hle]

/-- R192: awaiting a key with none down, the instruction is issued again. -/
theorem awaitKey_none {s : State} (h : ∀ k : Key, s.key[k] = false) : awaitKey s = rewind s := by
  rw [awaitKey, lowestKeyDown_none.2 h]

/-- R192: awaiting a key with one down, the lowest is latched and the instruction is issued again. -/
theorem awaitKey_lowest {s : State} {k : Key} (hk : s.key[k] = true) (hlow : ∀ j : Key, j < k → s.key[j] = false) :
    awaitKey s = rewind (setKl (some k) s) := by
  rw [awaitKey, lowestKeyDown_eq_some hk hlow]

/-- What differs in the registers, `pc` and the latch only leaves everything else alone. -/
theorem onlyVPcLatch_update (v : Vector Byte 16) (a : Word) (k : Option Key) (s : State) :
    onlyVPcLatch s { s with v := v, pc := a, kl := k } :=
  ⟨rfl, ⟨rfl, rfl⟩, ⟨rfl, rfl⟩, fun _ => rfl, ⟨rfl, rfl⟩, ⟨rfl, rfl, rfl⟩, rfl, rfl⟩

/-- R192: every poll completes, and writes registers, `pc` and the latch only. -/
theorem execWaitKey_completes (x : Reg) (s : State) : ∃ t, execWaitKey x s = .next t ∧ onlyVPcLatch s t := by
  obtain ⟨b, h⟩ | ⟨k, h⟩ := execWaitKey_cases x s
  · exact ⟨_, h, onlyVPcLatch_update _ s.pc none s⟩
  · exact ⟨_, h, onlyVPcLatch_update s.v _ k s⟩

/-- The index of a key fits a byte. -/
theorem toNat_ofNat_key (k : Key) : (BitVec.ofNat 8 k.val).toNat = k.val := by
  rw [BitVec.toNat_ofNat]
  omega

/-- Settles O41: every poll completes, and what is known of the latch and the keys gives the state that it leaves. -/
theorem waitKeyLatchesThenStores : Obligations.WaitKeyLatchesThenStores := by
  intro s x
  obtain ⟨t, ht, hframe⟩ := execWaitKey_completes x s
  have hleft : ∀ {u}, execWaitKey x s = .next u → t = u := fun h => Host.Outcome.next.inj (ht.symm.trans h)
  refine ⟨t, ht, hframe, fun hkl hup => ?noneDown, fun k hkl hk hlow => ?latched, fun k hkl hk => ?stored,
    fun k hkl hk => ?held⟩
  case noneDown =>
    obtain rfl := hleft (execWaitKey_unlatched hkl)
    rw [awaitKey_none hup]
    exact ⟨rfl, hkl, fun _ => rfl⟩
  case latched =>
    obtain rfl := hleft (execWaitKey_unlatched hkl)
    rw [awaitKey_lowest hk hlow]
    exact ⟨rfl, rfl, fun _ => rfl⟩
  case stored =>
    obtain rfl := hleft (execWaitKey_down hkl hk)
    refine ⟨rfl, rfl, ?_, fun r hr => readV_writeV_of_ne hr _ s⟩
    rw [readV_setKl, readV_writeV_self, toNat_ofNat_key]
  case held =>
    obtain rfl := hleft (execWaitKey_up hkl hk)
    exact ⟨rfl, hkl, fun _ => rfl⟩

/-! ### The timers -/

/-- What differs in the timers only leaves everything else alone. -/
theorem onlyTimers_update (d b : Byte) (s : State) : onlyTimers s { s with dt := d, st := b } :=
  ⟨fun _ => rfl, rfl, rfl, ⟨rfl, rfl⟩, rfl, fun _ => rfl, ⟨rfl, rfl⟩, ⟨rfl, rfl, rfl⟩, rfl, rfl⟩

/-- Settles O42: one `writeV` of the delay timer, and one `setDt` of the register. -/
theorem delayTimerIsReadAndWritten : Obligations.DelayTimerIsReadAndWritten :=
  fun s x => ⟨⟨_, rfl, onlyV_writeV x s.dt s, fun r => readV_writeV x r s.dt s⟩,
    ⟨_, rfl, rfl, rfl, onlyTimers_update _ s.st s⟩⟩

/-- R214: a tick of the sound timer takes one off, but not below 1, nor below a value of 0 (log 18). -/
theorem tickSound_toNat (b : Byte) : (tickSound b).toNat = max (b.toNat - 1) (min b.toNat 1) := by
  rw [tickSound]
  split
  · next h =>
    have hsub : (b - 1).toNat = b.toNat - 1 := by bv_omega
    omega
  · omega

/-- R215: the sound timer after any number of ticks. -/
theorem iterate_tickSound_toNat (n : Nat) (b : Byte) :
    (iterate tickSound n b).toNat = max (b.toNat - n) (min b.toNat 1) := by
  induction n generalizing b with
  | zero => rw [iterate]; omega
  | succ n ih => rw [iterate, ih, tickSound_toNat]; omega

/-- R217: a tone is audible after `n` ticks exactly if the sound timer was above `n + 1`. -/
theorem soundActive_ticks (n : Nat) (s : State) : soundActive (ticks n s) = true ↔ n + 1 < s.st.toNat := by
  rw [soundActive, decide_eq_true_iff, ticks_st, iterate_tickSound_toNat]
  omega

/-- Settles O43: one `setSt` of the register, and how long the tone then lasts is `soundActive_ticks`. -/
theorem setSoundStartsTone : Obligations.SetSoundStartsTone :=
  fun s x => ⟨_, rfl, rfl, rfl, onlyTimers_update s.dt _ s, fun n => soundActive_ticks n (setSt (readV s x) s)⟩

end Sys2Proof.Machine
end

section
/-! PROOFS, family 60_exceptions: what an advance runs or raises, which instruction raises which error, the state an error leaves,
and the timers after any number of ticks (R200 to R208, R214, R215, R220). -/

namespace Sys2Proof.Machine

/-! ### The opcode fetched -/

/-- R200: a word that decodes is executed with `pc` past it. -/
theorem runOpcode_decoded {op : Word} {i : Instr} (h : decode op = .ok i) (s : State) :
    runOpcode op s = exec i (setPc (s.pc + 2) s) := by
  rw [runOpcode, h]

/-- R203: a word that does not decode is raised with `pc` past it. -/
theorem runOpcode_unknown {op : Word} (h : ∀ i, decode op ≠ .ok i) (s : State) :
    runOpcode op s = .fault (.unknownInstruction op (setPc (s.pc + 2) s)) := by
  rw [runOpcode]
  cases hd : decode op with
  | ok i => exact absurd hd (h i)
  | error e => rfl

/-- R200: an advance runs the instruction that the two bytes at `pc` decode to. -/
theorem advance_decoded {s : State} {i : Instr} (n : Nat) (hpc : s.pc.toNat < 4095)
    (hi : decode (wordOfBytes (byteAt s s.pc.toNat) (byteAt s (s.pc.toNat + 1))) = .ok i) :
    advance n s = exec i (setPc (s.pc + 2) (ticks n s)) := by
  rw [advance_fetched n hpc, runOpcode_decoded hi, ticks_pc]

/-- Settles O7: in both cases of the list of pending moves the step is an advance, from the same memory and `pc`. -/
theorem stepRunsDecodedInstruction : Obligations.StepRunsDecodedInstruction := by
  refine fun s i hpc hi => ⟨fun n rest hhost => ?_, fun hhost => ?_⟩
  · rw [step_pending hhost]
    exact advance_decoded (s := { s with host := rest }) n hpc hi
  · rw [step_none_pending hhost]
    exact advance_decoded (s := countDraw s) _ hpc hi

/-- R99: the word of two zero bytes selects no row. -/
theorem decode_zero : decode 0x0000 = .error (.unknownInstruction 0x0000) := rfl

/-- Settles O10: the fetch succeeds, and what it reads does not decode. -/
theorem unknownWordEndsAdvance : Obligations.UnknownWordEndsAdvance := by
  rintro s n _ hpc rfl hop
  refine ⟨?_, fun i hi => nomatch decode_zero.symm.trans hi⟩
  rw [advance_fetched n hpc, runOpcode_unknown hop, ticks_pc]

/-- Settles O11: the error leaves `pc` where it was, so the next fetch is the same one. -/
theorem fetchErrorIsDeadEnd : Obligations.FetchErrorIsDeadEnd :=
  fun s n m h => ⟨_, _, advance_fetch_error n h, rfl, advance_fetch_error (s := ticks n s) m h, rfl⟩

/-! ### An opcode placed -/

/-- The bits of a word that are numbered from 16 on are not there. -/
theorem ofNat_mod_word (w : Nat) : BitVec.ofNat 16 (w % 2 ^ 16) = BitVec.ofNat 16 w :=
  BitVec.eq_of_toNat_eq (by simp only [BitVec.toNat_ofNat, Nat.mod_mod])

/-- A word of the opcode table decodes from its two bytes as from its bits. -/
theorem decode_of_decodeTableWord {w : Nat} {i : Instr} (h : decodeTableWord 16 w = some i) :
    decode (BitVec.ofNat 16 w) = .ok i := by
  rw [decodeTableWord, ofNat_mod_word] at h
  simp only [decodeBytes, wordOfBytes_bytes] at h
  cases hd : decode (BitVec.ofNat 16 w) with
  | ok j => rw [hd] at h; exact congrArg _ (Option.some.inj h)
  | error e => rw [hd] at h; cases h

theorem withFetchWord_eq_placeOpcode (s : State) (w : Nat) :
    s.withFetchWord 16 w = placeOpcode (BitVec.ofNat 16 w) s := by
  rw [State.withFetchWord, ofNat_mod_word]

/-- Where a fetch succeeds at `pc`, an opcode is placed there. -/
theorem fetchPlace_eq_pc {s : State} (h : s.pc.toNat < 4095) : fetchPlace s = s.pc := if_pos h

/-- R201: where no fetch succeeds at `pc`, an opcode is placed at the program origin. -/
theorem fetchPlace_eq_origin {s : State} (h : 4095 ≤ s.pc.toNat) : fetchPlace s = 0x200 := if_neg (Nat.not_lt.2 h)

/-- R68: of the memory, placing an opcode changes the two bytes of its place. -/
theorem byteAt_placeOpcode {s : State} (hw : Memory.wf s.mem = true) (op : Word) (p : Nat) :
    byteAt (placeOpcode op s) p =
      if p = (fetchPlace s).toNat + 1 then loByte op else if p = (fetchPlace s).toNat then hiByte op else byteAt s p := by
  have hplace := fetchPlace_lt s
  have hw' : Memory.wf (Memory.write s.mem (fetchPlace s).toNat (hiByte op)) = true :=
    Memory.wf_write hw (Nat.lt_succ_of_lt hplace)
  exact (Memory.read_write hw' _ p _).trans (congrArg _ (Memory.read_write hw _ p _))

/-- R64: the word placed is the word that a fetch at its place reads. -/
theorem wordAt_placeOpcode {s : State} (hw : Memory.wf s.mem = true) (op : Word) :
    wordOfBytes (byteAt (placeOpcode op s) (fetchPlace s).toNat)
      (byteAt (placeOpcode op s) ((fetchPlace s).toNat + 1)) = op := by
  rw [byteAt_placeOpcode hw, byteAt_placeOpcode hw, if_neg (Nat.succ_ne_self _).symm, if_pos rfl, if_pos rfl,
    wordOfBytes_bytes]

theorem sameMemOutside_placeOpcode {s : State} (hw : Memory.wf s.mem = true) (op : Word) :
    sameMemOutside (fetchPlace s).toNat 2 s (placeOpcode op s) := fun p hp => by
  rw [byteAt_placeOpcode hw, if_neg (by omega), if_neg (by omega)]

/-- R200: where no other move comes first, the step is an advance from a state in which only the pending moves and the count of
free values differ (log 11, 14). -/
theorem step_eq_advance {s : State} (h : s.host = [] ∨ ∃ n rest, s.host = .advance n :: rest) :
    ∃ n l d, step s = advance n { s with host := l, draws := d } := by
  obtain h | ⟨n, rest, h⟩ := h
  · exact ⟨_, s.host, s.draws + 1, step_none_pending h⟩
  · exact ⟨n, rest, s.draws, step_pending h⟩

/-- Settles O9: the step is an advance from the state with the opcode placed, whose fetch reads that opcode. -/
theorem placedWordRunsNext : Obligations.PlacedWordRunsNext := by
  intro s w i hw hi
  rw [withFetchWord_eq_placeOpcode]
  have hword := wordAt_placeOpcode hw (BitVec.ofNat 16 w)
  obtain ⟨n, l, d, hstep⟩ := step_eq_advance (s := placeOpcode (BitVec.ofNat 16 w) s) (skipToAdvance_cases s.host)
  refine ⟨n, { placeOpcode (BitVec.ofNat 16 w) s with host := l, draws := d }, hstep.trans ?_, rfl, fetchPlace_eq_pc,
    fetchPlace_eq_origin, hword, sameMemOutside_placeOpcode hw _, fun _ => rfl, rfl, ⟨rfl, rfl⟩, ⟨rfl, rfl⟩, rfl,
    ⟨rfl, rfl⟩, rfl, rfl, rfl⟩
  exact advance_decoded n (fetchPlace_lt s) ((congrArg decode hword).trans (decode_of_decodeTableWord hi))

/-! ### Which instruction raises which error -/

/-- The outcomes an instruction can have (R202, R204, R205, R220): it completes, or it ends in the error of its kind. -/
inductive NamedOutcome : Instr → State → Result → Prop
  | next (i : Instr) (s t : State) : NamedOutcome i s (.next t)
  | memory {i : Instr} {a : Nat} (s t : State) (ha : 4096 ≤ a)
      (hi : (∃ x y n, i = .draw x y n) ∨ (∃ x, i = .loadRegs x) ∨ (∃ x, i = .storeBcd x) ∨ ∃ x, i = .storeRegs x) :
      NamedOutcome i s (.fault (.memoryOutOfBounds a t))
  | stackEmpty {s : State} (h : s.sp.val = 0) : NamedOutcome .ret s (.fault (.stackEmpty s))
  | stackOverflow {s : State} (nnn : Word) (h : s.sp.val = 16) : NamedOutcome (.call nnn) s (.fault (.stackOverflow s))

theorem execReturn_outcome (s : State) : NamedOutcome .ret s (execReturn s) := by
  rw [execReturn]
  by_cases h : s.sp.val = 0
  · exact popToPc_fault h ▸ .stackEmpty h
  · exact popToPc_next h ▸ .next _ s _

theorem execCall_outcome (nnn : Word) (s : State) : NamedOutcome (.call nnn) s (execCall nnn s) := by
  by_cases h : s.sp.val = 16
  · exact execCall_fault nnn h ▸ .stackOverflow nnn h
  · exact execCall_frame (k := ⟨s.sp.val, by omega⟩) nnn rfl ▸ .next _ s _

theorem execDraw_outcome (x y : Reg) (n : Nat) (s : State) : NamedOutcome (.draw x y n) s (execDraw x y n s) := by
  by_cases h : n = 0 ∨ s.i.toNat + n ≤ 4096
  · exact execDraw_next h ▸ .next _ s _
  · exact execDraw_fault h ▸ .memory s _ (Nat.le_max_right _ _) (by simp)

theorem execLoadRegs_outcome (x : Reg) (s : State) : NamedOutcome (.loadRegs x) s (execLoadRegs x s) := by
  rcases Nat.lt_or_ge 4096 (s.i.toNat + x.val + 1) with h | h
  · exact execLoadRegs_fault h ▸ .memory s _ (Nat.le_max_right _ _) (by simp)
  · exact execLoadRegs_next h ▸ .next _ s _

theorem execStoreBcd_outcome (x : Reg) (s : State) : NamedOutcome (.storeBcd x) s (execStoreBcd x s) := by
  rcases Nat.lt_or_ge 4096 (s.i.toNat + 3) with h | h
  · exact execStoreBcd_fault h ▸ .memory s _ (Nat.le_max_right _ _) (by simp)
  · exact execStoreBcd_next h ▸ .next _ s _

theorem execStoreRegs_outcome (x : Reg) (s : State) : NamedOutcome (.storeRegs x) s (execStoreRegs x s) := by
  rcases Nat.lt_or_ge 4096 (s.i.toNat + x.val + 1) with h | h
  · exact execStoreRegs_fault h ▸ .memory s _ (Nat.le_max_right _ _) (by simp)
  · exact execStoreRegs_next h ▸ .next _ s _

/-- R190, R191: a key skip completes, whatever its register names (log 13). -/
theorem testKey_skip_outcome (i : Instr) (b : Byte) (c : Bool → Bool) (s : State) :
    NamedOutcome i s (testKey params.keyOor b s fun down t => .next (skipIf (c down) t)) := by
  obtain ⟨down, t, -, h⟩ := testKey_cases b s fun down t => .next (skipIf (c down) t)
  exact h ▸ .next i s _

theorem execWaitKey_outcome (x : Reg) (s : State) : NamedOutcome (.waitKey x) s (execWaitKey x s) := by
  obtain ⟨t, h, -⟩ := execWaitKey_completes x s
  exact h ▸ .next _ s t

/-- R220: the instructions that can fail are the four that access memory through `I`, `return` and `call`. -/
theorem exec_outcome (i : Instr) (s : State) : NamedOutcome i s (exec i s) := by
  cases i with
  | ret => exact execReturn_outcome s
  | call nnn => exact execCall_outcome nnn s
  | draw x y n => exact execDraw_outcome x y n s
  | loadRegs x => exact execLoadRegs_outcome x s
  | storeBcd x => exact execStoreBcd_outcome x s
  | storeRegs x => exact execStoreRegs_outcome x s
  | skipIfKey x => exact testKey_skip_outcome _ _ (fun down => down) s
  | skipIfNotKey x => exact testKey_skip_outcome _ _ (fun down => !down) s
  | waitKey x => exact execWaitKey_outcome x s
  | _ => exact .next _ s _

/-- R206: an instruction that fails leaves `pc` past it. -/
theorem exec_fault_pc {i : Instr} {s : State} {r : Fault} (h : exec i s = .fault r) : r.left.pc = s.pc := by
  have hout := exec_outcome i s
  have hwrites := leaves_fault.1 (h ▸ exec_writes_only i s)
  rw [h] at hout
  cases hout with
  | memory _ _ _ hi =>
    obtain ⟨x, y, n, rfl⟩ | ⟨x, rfl⟩ | ⟨x, rfl⟩ | ⟨x, rfl⟩ := hi <;> exact hwrites.pc_eq (by simp [parts])
  | stackEmpty | stackOverflow => rfl

/-- Settles O12: a refusal is none of the named outcomes, and each error is that of its instruction. -/
theorem errorsAreRaisedOnlyWhereNamed : Obligations.ErrorsAreRaisedOnlyWhereNamed := by
  intro i s
  have hout := exec_outcome i s
  refine ⟨fun q hq => ?_, fun r hr => ⟨exec_fault_pc hr, ?_⟩⟩
  · rw [hq] at hout
    cases hout
  · rw [hr] at hout
    cases hout with
    | memory _ t ha hi => exact .inl ⟨_, t, rfl, ha, hi⟩
    | stackEmpty h => exact .inr (.inl ⟨rfl, rfl, h⟩)
    | stackOverflow nnn h => exact .inr (.inr ⟨rfl, ⟨nnn, rfl⟩, h⟩)

/-- Settles O53: the case of an error of `step_keeps_inv`. -/
theorem errorsLeaveInvariant : Obligations.ErrorsLeaveInvariant :=
  fun _ _ hs h => leaves_fault.1 (h ▸ step_keeps_inv hs)

/-! ### Ticks -/

/-- R214: a tick of the delay timer takes one off, but not below 0. -/
theorem tickDelay_toNat (b : Byte) : (tickDelay b).toNat = b.toNat - 1 := by
  rw [tickDelay]
  split
  · bv_omega
  · omega

/-- R215: the delay timer after any number of ticks. -/
theorem iterate_tickDelay_toNat (n : Nat) (b : Byte) : (iterate tickDelay n b).toNat = b.toNat - n := by
  induction n generalizing b with
  | zero => rfl
  | succ n ih => rw [iterate, ih, tickDelay_toNat]; omega

/-- Settles O44: each timer by its own induction over the ticks; the frame is that of an update of the timers. -/
theorem ticksStopAtTheirFloors : Obligations.TicksStopAtTheirFloors := by
  intro s n
  have hst : (ticks n s).st.toNat = max (s.st.toNat - n) (min s.st.toNat 1) := iterate_tickSound_toNat n s.st
  exact ⟨iterate_tickDelay_toNat n s.dt, fun h => by omega, fun h => by omega, onlyTimers_update _ _ s⟩

end Sys2Proof.Machine
end

section
/-! PROOFS, family 70_reset_and_hazards: what the resets, load, set-key and sync-display leave, byte by byte and key by key, and
what the delay timer reads back (R241 to R252). -/

namespace Sys2Proof.Machine

/-! ### Load -/

/-- The state after an image that fits is loaded (R244). -/
def loaded (image : List Byte) (s : State) : State := { stored 0x200 image s with plen := image.length }

theorem load_loaded {image : List Byte} {s : State} (h : image.length ≤ 3584) :
    load image s = .next (loaded image s) := by
  rw [load_next h, loaded, stored, List.take_of_length_le h]

/-- An image that does not fit leaves what of it the memory holds, and a free value in `PLEN` (log 28, 30). -/
theorem load_unfit {image : List Byte} {s : State} (h : 3584 < image.length) :
    load image s = .fault (.memoryOutOfBounds 4096 (plenUnknown (stored 0x200 image s))) :=
  load_fault h

/-- R244: a free value of `PLEN` is one that a load can leave (log 30). -/
theorem plenUnknown_plen_le (s : State) : (plenUnknown s).plen ≤ 3584 :=
  Nat.le_of_lt_succ (Nat.mod_lt _ (Nat.succ_pos _))

/-- Byte `j` of an image stands at 0x200 + `j`, if it falls inside the memory (R65). -/
theorem byteAt_stored_image {s : State} (hw : Memory.wf s.mem = true) {image : List Byte} {j : Nat}
    (h : j < image.length) (hj : j < 3584) : byteAt (stored 0x200 image s) (0x200 + j) = image[j] :=
  byteAt_stored_of_getElem? hw (List.getElem?_eq_getElem h) (by omega)

/-- Settles O57: what is written is `stored`, whole or as far as the memory reaches. -/
theorem loadWritesImageOnly : Obligations.LoadWritesImageOnly := by
  refine fun s image hw => ⟨fun hfit => ?fits, fun hlong => ?tooLong⟩
  case fits =>
    exact ⟨loaded image s, load_loaded hfit, rfl, fun j h => byteAt_stored_image hw h (by omega),
      sameMemOutside_stored_length hw 0x200 image, fun _ => rfl, rfl, rfl, ⟨rfl, rfl⟩, ⟨rfl, rfl⟩, rfl, ⟨rfl, rfl⟩, rfl,
      rfl, rfl, rfl⟩
  case tooLong =>
    exact ⟨_, load_unfit hlong, plenUnknown_plen_le _, fun j h hj => byteAt_stored_image hw h hj,
      sameMemOutside_stored hw 0x200 image, fun _ => rfl, rfl, rfl, ⟨rfl, rfl⟩, ⟨rfl, rfl⟩, rfl, ⟨rfl, rfl⟩, rfl⟩

/-! ### The resets -/

section Plen

variable (n : Nat) (s : State)

theorem byteAt_update_plen (a : Nat) : byteAt { s with plen := n } a = byteAt s a := rfl

theorem afterReset_update_plen : afterReset { s with plen := n } ↔ afterReset s := Iff.rfl

end Plen

/-- R242: full reset zeroes the program region and no byte below it (log 31). -/
theorem byteAt_fullReset {s : State} (hw : Memory.wf s.mem = true) (a : Nat) :
    byteAt (fullReset s) a = if 0x200 ≤ a ∧ a < 4096 then 0 else byteAt s a := by
  rw [fullReset, byteAt_update_plen]
  exact byteAt_zeroFrom (s := inputReset (displayReset (cpuReset s))) hw (by decide) a

theorem afterReset_fullReset (s : State) : afterReset (fullReset s) := by
  rw [fullReset, afterReset_update_plen, afterReset_zeroFrom]
  exact afterReset_resets s

/-- Settles O55: the three resets, and `byteAt_fullReset` on both sides of 0x200. -/
theorem fullResetKeepsLowMemory : Obligations.FullResetKeepsLowMemory := by
  refine fun s hw => ⟨_, rfl, afterReset_fullReset s, fun a hlow hend => ?_, fun a hlow => ?_, rfl, rfl, rfl, rfl⟩
  · rw [byteAt_fullReset hw, if_pos ⟨hlow, hend⟩]
  · rw [byteAt_fullReset hw, if_neg (by omega)]

/-- R243: light reload zeroes what lies beyond the last loaded program, and no byte before its end. -/
theorem byteAt_lightReload {s : State} (hw : Memory.wf s.mem = true) (hp : s.plen ≤ 3584) (a : Nat) :
    byteAt (lightReload s) a = if 0x200 + s.plen ≤ a ∧ a < 4096 then 0 else byteAt s a :=
  byteAt_zeroFrom (s := inputReset (displayReset (cpuReset s))) hw (Nat.add_le_add_left hp 0x200) a

theorem byteAt_lightReload_beyond {s : State} (hw : Memory.wf s.mem = true) (hp : s.plen ≤ 3584) {a : Nat}
    (ha : 0x200 + s.plen ≤ a) (hend : a < 4096) : byteAt (lightReload s) a = 0 := by
  rw [byteAt_lightReload hw hp, if_pos ⟨ha, hend⟩]

theorem byteAt_lightReload_before {s : State} (hw : Memory.wf s.mem = true) (hp : s.plen ≤ 3584) {a : Nat}
    (ha : a < 0x200 + s.plen) : byteAt (lightReload s) a = byteAt s a := by
  rw [byteAt_lightReload hw hp, if_neg (by omega)]

theorem afterReset_lightReload (s : State) : afterReset (lightReload s) :=
  afterReset_zeroFrom.2 (afterReset_resets s)

/-- Loading an image that fits keeps memory canonical. -/
theorem wf_loaded {image : List Byte} {s : State} (hw : Memory.wf s.mem = true) (h : image.length ≤ 3584) :
    Memory.wf (loaded image s).mem = true := by
  rw [loaded, stored, List.take_of_length_le h]
  exact Memory.wf_putBytes hw (by omega)

/-- Settles O56: light reload keeps the bytes before the end of the program; after a load these are the image and what lay below
it. -/
theorem lightReloadKeepsLoadedImage : Obligations.LightReloadKeepsLoadedImage := by
  refine fun s hw => ⟨fun hp => ?anyState, fun image hfit => ?afterLoad⟩
  case anyState =>
    exact ⟨_, rfl, afterReset_lightReload s, fun a ha => byteAt_lightReload_before hw hp ha,
      fun a ha hend => byteAt_lightReload_beyond hw hp ha hend, rfl, rfl, rfl, rfl⟩
  case afterLoad =>
    have hw' := wf_loaded hw hfit
    refine ⟨loaded image s, _, load_loaded hfit, rfl, afterReset_lightReload _, fun j h => ?image,
      fun a ha hend => byteAt_lightReload_beyond hw' hfit ha hend, fun a ha => ?below, rfl⟩
    case image =>
      exact (byteAt_lightReload_before hw' hfit (Nat.add_lt_add_left h 0x200)).trans
        (byteAt_stored_image hw h (by omega))
    case below =>
      exact (byteAt_lightReload_before hw' hfit (Nat.lt_add_right _ ha)).trans
        (sameMemOutside_stored_length hw 0x200 image a (by omega))

/-! ### The keys and the display -/

/-- R248: the key set has the value, every other key its own. -/
theorem key_setKey (k j : Key) (down : Bool) (s : State) :
    (setKey k down s).key[j] = if j = k then down else s.key[j] := by
  rw [setKey_key, Fin.getElem_fin, Vector.getElem_set]
  exact if_congr (Fin.val_inj.trans eq_comm) rfl rfl

/-- Settles O58: `key_setKey` for the key itself and for any other. -/
theorem setKeyChangesOneKey : Obligations.SetKeyChangesOneKey := by
  refine fun s k down => ⟨_, rfl, ?_, fun j hj => ?_, fun _ => rfl, rfl, rfl, ⟨rfl, rfl⟩, ⟨rfl, rfl⟩, rfl, fun _ => rfl,
    ⟨rfl, rfl⟩, rfl, rfl, rfl, rfl⟩
  · rw [key_setKey, if_pos rfl]
  · rw [key_setKey, if_neg hj]

/-- R250: a raised flag has the whole grid handed over. -/
theorem syncFrame_changed {s : State} (h : s.dchg = true) : syncFrame s = some s.disp := by
  rw [syncFrame, if_pos h]

theorem syncFrame_unchanged {s : State} (h : s.dchg = false) : syncFrame s = none := by
  rw [syncFrame, if_neg (ne_true_of_eq_false h)]

/-- Settles O59: what is delivered goes by `DCHG`, which sync-display clears. -/
theorem syncDisplayDeliversOnce : Obligations.SyncDisplayDeliversOnce :=
  fun s => ⟨_, rfl, syncFrame_changed, syncFrame_unchanged, rfl, syncFrame_unchanged (syncDisplay_dchg s), rfl,
    fun _ => rfl, rfl, rfl, ⟨rfl, rfl⟩, ⟨rfl, rfl⟩, rfl, fun _ => rfl, ⟨rfl, rfl, rfl⟩, rfl, rfl⟩

/-! ### The delay timer read back -/

/-- Settles O45: the register receives the timer as the ticks have left it. -/
theorem delayReadsBackLessTicks : Obligations.DelayReadsBackLessTicks :=
  fun _ _ y n => ⟨_, _, rfl, rfl, (congrArg BitVec.toNat (readV_writeV_self y _ _)).trans (iterate_tickDelay_toNat n _)⟩

end Sys2Proof.Machine
end

section
/-! PROOFS, family other: the decoder and the encoder undo each other, and the decoder agrees with the opcode map and with the list of
illegal words (30_encoding.md R91 to R99). -/

namespace Sys2Proof.Machine

/-! ### The word of known fixed fields and of its own operands -/

theorem fieldLead_toNat_of_eq {op : Word} {lead : Nat} (hlt : lead < 16) (h : fieldLead op = BitVec.ofNat 4 lead) :
    (fieldLead op).toNat = lead := by
  rw [h, BitVec.toNat_ofNat, Nat.mod_eq_of_lt hlt]

theorem formatA_of_lead {op : Word} {lead : Nat} (hlt : lead < 16) (h : fieldLead op = BitVec.ofNat 4 lead) :
    formatA lead (fieldNNN op) = op := by
  conv_lhs => rw [← fieldLead_toNat_of_eq hlt h, formatA_of_fields]

theorem formatXI_of_lead {op : Word} {lead : Nat} (hlt : lead < 16) (h : fieldLead op = BitVec.ofNat 4 lead) :
    formatXI lead (fieldX op) (fieldNN op) = op := by
  conv_lhs => rw [← fieldLead_toNat_of_eq hlt h, formatXI_of_fields]

theorem formatX_of_lead_NN {op : Word} {lead : Nat} {sub : Byte} (hlt : lead < 16)
    (h : fieldLead op = BitVec.ofNat 4 lead) (hs : fieldNN op = sub) : formatX lead (fieldX op) sub = op :=
  hs ▸ formatXI_of_lead hlt h

theorem formatXY_of_lead {op : Word} {lead : Nat} (hlt : lead < 16) (h : fieldLead op = BitVec.ofNat 4 lead) :
    formatXY lead (fieldX op) (fieldY op) (fieldN op).toNat = op := by
  conv_lhs => rw [← fieldLead_toNat_of_eq hlt h, formatXY_of_fields]

theorem formatXY_of_lead_N {op : Word} {lead n : Nat} (hlt : lead < 16) (h : fieldLead op = BitVec.ofNat 4 lead)
    (hn : fieldN op = BitVec.ofNat 4 n) : formatXY lead (fieldX op) (fieldY op) n = op := by
  conv_rhs => rw [← formatXY_of_lead hlt h, hn]
  simp [formatXY]

/-! ### What the decoder can answer -/

/-- The illegal words of R99, by leading nibble, low nibble and low byte. -/
def IllegalWord (op : Word) : Prop :=
  (fieldLead op = 0x0 ∧ op ≠ 0x00E0 ∧ op ≠ 0x00EE) ∨ (fieldLead op = 0x5 ∧ fieldN op ≠ 0) ∨
  (fieldLead op = 0x8 ∧ fieldN op ∈ ([0x8, 0x9, 0xA, 0xB, 0xC, 0xD, 0xF] : List (BitVec 4))) ∨
  (fieldLead op = 0x9 ∧ fieldN op ≠ 0) ∨
  (fieldLead op = 0xE ∧ fieldNN op ∉ ([0x9E, 0xA1] : List Byte)) ∨
  (fieldLead op = 0xF ∧ fieldNN op ∉ ([0x07, 0x0A, 0x15, 0x18, 0x1E, 0x29, 0x33, 0x55, 0x65] : List Byte))

/-- The answers a decoder may give on a word: an instruction whose word it is, or the error of an illegal word. -/
inductive DecodeAnswer (op : Word) : Except DecodeError Instr → Prop
  | ok {i : Instr} (h : encode i = op) : DecodeAnswer op (.ok i)
  | unknown (h : IllegalWord op) : DecodeAnswer op (.error (.unknownInstruction op))

/-- R96: for `lead = 8` the low nibble decides; those that no operation has are the illegal ones. -/
theorem decodeFamily8_answer {op : Word} (h : fieldLead op = 0x8) : DecodeAnswer op (decodeFamily8 op) := by
  unfold decodeFamily8
  split
  case h_10 =>
    refine .unknown (.inr (.inr (.inl ⟨h, ?_⟩)))
    generalize fieldN op = n at *
    clear h
    decide +revert
  all_goals exact .ok (formatXY_of_lead_N (by decide) h ‹_›)

theorem decodeFamilyE_answer {op : Word} (h : fieldLead op = 0xE) : DecodeAnswer op (decodeFamilyE op) := by
  unfold decodeFamilyE
  split
  case h_3 =>
    refine .unknown (.inr (.inr (.inr (.inr (.inl ⟨h, ?_⟩)))))
    simp only [List.mem_cons, List.not_mem_nil, or_false, not_or]
    and_intros <;> assumption
  all_goals exact .ok (formatX_of_lead_NN (by decide) h ‹_›)

theorem decodeFamilyF_answer {op : Word} (h : fieldLead op = 0xF) : DecodeAnswer op (decodeFamilyF op) := by
  unfold decodeFamilyF
  split
  case h_10 =>
    refine .unknown (.inr (.inr (.inr (.inr (.inr ⟨h, ?_⟩)))))
    simp only [List.mem_cons, List.not_mem_nil, or_false, not_or]
    and_intros <;> assumption
  all_goals exact .ok (formatX_of_lead_NN (by decide) h ‹_›)

/-- R95, R96, R99: along the branches of the dispatch, each one tests the fixed fields of its instruction's word. -/
theorem decode_answer (op : Word) : DecodeAnswer op (decode op) := by
  unfold decode
  split
  case h_1 h =>
    split_ifs with h0 hE
    · exact .ok h0.symm
    · exact .ok hE.symm
    · exact .unknown (.inl ⟨h, h0, hE⟩)
  case h_6 h =>
    split_ifs with hn
    · exact .ok (formatXY_of_lead_N (by decide) h hn)
    · exact .unknown (.inr (.inl ⟨h, hn⟩))
  case h_10 h =>
    split_ifs with hn
    · exact .ok (formatXY_of_lead_N (by decide) h hn)
    · exact .unknown (.inr (.inr (.inr (.inl ⟨h, hn⟩))))
  case h_9 h => exact decodeFamily8_answer h
  case h_15 h => exact decodeFamilyE_answer h
  case h_16 =>
    refine decodeFamilyF_answer ?_
    generalize fieldLead op = lead at *
    decide +revert
  case h_2 h | h_3 h | h_11 h | h_12 h => exact .ok (formatA_of_lead (by decide) h)
  case h_14 h => exact .ok (formatXY_of_lead (by decide) h)
  all_goals exact .ok (formatXI_of_lead (by decide) ‹_›)

/-- Settles O2: of the answers of the decoder, an instruction is one whose word it is. -/
theorem encodeOfDecodedWord : Obligations.EncodeOfDecodedWord := by
  intro op i h
  refine ⟨?_, decode_wellFormed h⟩
  have ha := decode_answer op
  rw [h] at ha
  cases ha with
  | ok he => exact he

/-! ### The decoder reads an encoded instruction back -/

theorem toNat_lt_of_countFits {n : Nat} (h : countFits n = true) : n < 16 :=
  of_decide_eq_true h

/-- Settles O1: format by format, the decoder dispatches on the fixed fields of the word and reads the operands back from the
others. -/
theorem decodeOfEncodedInstruction : Obligations.DecodeOfEncodedInstruction := by
  intro i hi
  cases i with
  | clearScreen | ret => rfl
  | jump nnn | call nnn | setIndex nnn | jumpOffset nnn =>
    simp [encode, decode, fieldLead_formatA, fieldNNN_formatA, toNat_lt_of_addressFits hi]
  | skipEqImm x nn | skipNeImm x nn | loadImm x nn | addImm x nn | random x nn =>
    simp [encode, decode, fieldLead_formatXI, fieldX_formatXI, fieldNN_formatXI]
  | skipEqReg x y | skipNeReg x y =>
    simp [encode, decode, fieldLead_formatXY, fieldX_formatXY, fieldY_formatXY, fieldN_formatXY]
  | draw x y n =>
    simp [encode, decode, fieldLead_formatXY, fieldX_formatXY, fieldY_formatXY, fieldN_formatXY,
      Nat.mod_eq_of_lt (toNat_lt_of_countFits hi)]
  | set x y | or x y | and x y | xor x y | add x y | sub x y | shr x y | subn x y | shl x y =>
    simp [encode, decode, decodeFamily8, fieldLead_formatXY, fieldX_formatXY, fieldY_formatXY, fieldN_formatXY]
  | skipIfKey x | skipIfNotKey x =>
    simp [encode, decode, decodeFamilyE, fieldLead_formatX, fieldX_formatX, fieldNN_formatX]
  | _ x => simp [encode, decode, decodeFamilyF, fieldLead_formatX, fieldX_formatX, fieldNN_formatX]

/-! ### The opcode map -/

theorem ctorIdx_lt (i : Instr) : i.ctorIdx < opcodeRows.length := by
  cases i <;> exact of_decide_eq_true rfl

/-- The row of R95 of an instruction: the constructors stand in the order of the rows. -/
def rowOf (i : Instr) : OpcodeRow := opcodeRows[i.ctorIdx]'(ctorIdx_lt i)

theorem rowOf_mem (i : Instr) : rowOf i ∈ opcodeRows := List.getElem_mem _

theorem rowOf_mnemonic (i : Instr) : (rowOf i).mnemonic = i.mnemonic := by
  cases i <;> rfl

theorem eq_of_mnemonic_eq {r q : OpcodeRow} (hr : r ∈ opcodeRows) (hq : q ∈ opcodeRows)
    (h : r.mnemonic = q.mnemonic) : r = q :=
  List.inj_on_of_nodup_map (f := OpcodeRow.mnemonic) (by decide) hr hq h

/-- Two rows differ, where they are not the same, in a bit that both masks cover. -/
theorem opcodeRows_crossMasked : ∀ r ∈ opcodeRows, ∀ q ∈ opcodeRows, r.bits &&& q.mask = q.bits &&& r.mask → r = q := by
  decide

theorem opcodeRows_disjoint {op : Word} {r q : OpcodeRow} (hr : r ∈ opcodeRows) (hq : q ∈ opcodeRows)
    (h : op &&& r.mask = r.bits) (h' : op &&& q.mask = q.bits) : r = q :=
  opcodeRows_crossMasked r hr q hq (by rw [← h, ← h', BitVec.and_assoc, BitVec.and_assoc, BitVec.and_comm r.mask])

/-! ### The masks of the map -/

theorem and_leadMask (op : Word) : op &&& (0xF000 : Word) = (fieldLead op).setWidth 16 <<< 12 := by
  ext i hi
  interval_cases i <;> simp [fieldLead]

theorem and_nMask (op : Word) : op &&& (0x000F : Word) = (fieldN op).setWidth 16 := by
  ext i hi
  interval_cases i <;> simp [fieldN]

theorem and_nnMask (op : Word) : op &&& (0x00FF : Word) = (fieldNN op).setWidth 16 := by
  ext i hi
  interval_cases i <;> simp [fieldNN]

theorem and_leadMask_eq {op bits : Word} {lead : BitVec 4} (h : fieldLead op = lead)
    (hb : lead.setWidth 16 <<< 12 = bits) : op &&& (0xF000 : Word) = bits := by
  rw [and_leadMask, h, hb]

theorem and_leadNMask_eq {op bits : Word} {lead n : BitVec 4} (h : fieldLead op = lead) (hn : fieldN op = n)
    (hb : lead.setWidth 16 <<< 12 ||| n.setWidth 16 = bits) : op &&& (0xF00F : Word) = bits := by
  rw [show (0xF00F : Word) = 0xF000 ||| 0x000F from rfl, BitVec.and_or_distrib_left, and_leadMask, and_nMask, h, hn, hb]

theorem and_leadNNMask_eq {op bits : Word} {lead : BitVec 4} {nn : Byte} (h : fieldLead op = lead) (hn : fieldNN op = nn)
    (hb : lead.setWidth 16 <<< 12 ||| nn.setWidth 16 = bits) : op &&& (0xF0FF : Word) = bits := by
  rw [show (0xF0FF : Word) = 0xF000 ||| 0x00FF from rfl, BitVec.and_or_distrib_left, and_leadMask, and_nnMask, h, hn, hb]

/-- R95: the word of an instruction, whatever its operands, selects the instruction's row. -/
theorem encode_selects_rowOf (i : Instr) : encode i &&& (rowOf i).mask = (rowOf i).bits := by
  cases i with
  | clearScreen | ret => rfl
  | jump nnn | call nnn | setIndex nnn | jumpOffset nnn =>
    exact and_leadMask_eq (fieldLead_formatA (by decide) nnn) rfl
  | skipEqImm x nn | skipNeImm x nn | loadImm x nn | addImm x nn | random x nn =>
    exact and_leadMask_eq (fieldLead_formatXI (by decide) x nn) rfl
  | draw x y n => exact and_leadMask_eq (fieldLead_formatXY (by decide) x y n) rfl
  | skipEqReg x y | skipNeReg x y | set x y | or x y | and x y | xor x y | add x y | sub x y | shr x y | subn x y
  | shl x y =>
    exact and_leadNMask_eq (fieldLead_formatXY (by decide) x y _) (fieldN_formatXY (by decide) x y _) rfl
  | _ x => exact and_leadNNMask_eq (fieldLead_formatX (by decide) x _) (fieldNN_formatX (by decide) x _) rfl

/-- A decoded word selects the row of the instruction it decodes to. -/
theorem selects_rowOf_of_decode {op : Word} {i : Instr} (h : decode op = .ok i) :
    op &&& (rowOf i).mask = (rowOf i).bits :=
  (encodeOfDecodedWord op i h).1 ▸ encode_selects_rowOf i

/-! ### Illegal words select no row -/

/-- A run of bits that the mask covers is the same in the word and in what the mask leaves of it. -/
theorem extractLsb'_eq_of_masked {op mask bits : Word} {start len : Nat} (h : op &&& mask = bits)
    (hm : mask.extractLsb' start len = BitVec.allOnes len) : op.extractLsb' start len = bits.extractLsb' start len := by
  rw [← h, BitVec.extractLsb'_and, hm, BitVec.and_allOnes]

/-- R96, R99: whether a word is illegal goes by its leading nibble and what the dispatch on that nibble tests besides. -/
theorem IllegalWord.congr {a b : Word} (h : IllegalWord a) (hlead : fieldLead a = fieldLead b)
    (hword : fieldLead b = 0x0 → a = b)
    (hn : fieldLead b ∈ ([0x5, 0x8, 0x9] : List (BitVec 4)) → fieldN a = fieldN b)
    (hnn : fieldLead b ∈ ([0xE, 0xF] : List (BitVec 4)) → fieldNN a = fieldNN b) : IllegalWord b := by
  unfold IllegalWord at h ⊢
  rw [hlead] at h
  obtain ⟨hl, hne⟩ | ⟨hl, hne⟩ | ⟨hl, hmem⟩ | ⟨hl, hne⟩ | ⟨hl, hmem⟩ | ⟨hl, hmem⟩ := h
  · exact .inl ⟨hl, hword hl ▸ hne⟩
  · exact .inr (.inl ⟨hl, hn (by simp [hl]) ▸ hne⟩)
  · exact .inr (.inr (.inl ⟨hl, hn (by simp [hl]) ▸ hmem⟩))
  · exact .inr (.inr (.inr (.inl ⟨hl, hn (by simp [hl]) ▸ hne⟩)))
  · exact .inr (.inr (.inr (.inr (.inl ⟨hl, hnn (by simp [hl]) ▸ hmem⟩))))
  · exact .inr (.inr (.inr (.inr (.inr ⟨hl, hnn (by simp [hl]) ▸ hmem⟩))))

/-- R96: the mask of a row covers the leading nibble and what the dispatch on that nibble tests besides. -/
theorem opcodeRows_mask_covers : ∀ r ∈ opcodeRows, fieldLead r.mask = 0xF ∧
    (fieldLead r.bits = 0x0 → r.mask = BitVec.allOnes 16) ∧
    (fieldLead r.bits ∈ ([0x5, 0x8, 0x9] : List (BitVec 4)) → fieldN r.mask = 0xF) ∧
    (fieldLead r.bits ∈ ([0xE, 0xF] : List (BitVec 4)) → fieldNN r.mask = 0xFF) := by
  decide

theorem opcodeRows_bits_legal : ∀ r ∈ opcodeRows, ¬ IllegalWord r.bits := by
  unfold IllegalWord
  decide

/-- R99: the match of a row would be illegal with the word, for the row's mask keeps all that makes the word illegal. -/
theorem IllegalWord.selects_no_row {op : Word} (h : IllegalWord op) {r : OpcodeRow} (hr : r ∈ opcodeRows) :
    op &&& r.mask ≠ r.bits := by
  intro hsel
  obtain ⟨hlead, hword, hn, hnn⟩ := opcodeRows_mask_covers r hr
  refine opcodeRows_bits_legal r hr (h.congr (extractLsb'_eq_of_masked hsel hlead) (fun hl => ?whole)
    (fun hl => extractLsb'_eq_of_masked hsel (hn hl)) (fun hl => extractLsb'_eq_of_masked hsel (hnn hl)))
  case whole => rw [← hsel, hword hl, BitVec.and_allOnes]

theorem encode_legal (i : Instr) : ¬ IllegalWord (encode i) :=
  fun h => h.selects_no_row (rowOf_mem i) (encode_selects_rowOf i)

/-- Settles O4: the decoder rejects illegal words only, and no illegal word is one that it can have decoded. -/
theorem illegalWordsAreRejected : Obligations.IllegalWordsAreRejected := by
  intro op
  have ha := decode_answer op
  generalize decode op = answer at ha ⊢
  cases ha with
  | ok he => exact ⟨⟨nofun, fun h => absurd h (he ▸ encode_legal _)⟩, .inr ⟨_, rfl⟩⟩
  | unknown h => exact ⟨⟨fun _ => h, fun _ => rfl⟩, .inl rfl⟩

/-- R95: a word that selects a row decodes to an instruction of that row. -/
theorem decode_of_selects {op : Word} {r : OpcodeRow} (hr : r ∈ opcodeRows) (hsel : op &&& r.mask = r.bits) :
    ∃ i, decode op = .ok i ∧ rowOf i = r := by
  obtain ⟨hillegal, herr | ⟨i, hi⟩⟩ := illegalWordsAreRejected op
  · exact absurd hsel (IllegalWord.selects_no_row (hillegal.1 herr) hr)
  · exact ⟨i, hi, opcodeRows_disjoint (rowOf_mem i) hr (selects_rowOf_of_decode hi) hsel⟩

/-- Settles O3: the row of the instruction a word decodes to is the one row with its mnemonic and the one row the word
selects. -/
theorem decoderFollowsOpcodeMap : Obligations.DecoderFollowsOpcodeMap := by
  refine ⟨rfl, fun op r hr q hq => opcodeRows_disjoint hr hq, fun op r hr => ⟨fun hsel => ?selected, ?decoded⟩⟩
  case selected =>
    obtain ⟨i, hi, rfl⟩ := decode_of_selects hr hsel
    exact ⟨i, hi, (rowOf_mnemonic i).symm⟩
  case decoded =>
    rintro ⟨i, hi, hm⟩
    obtain rfl := eq_of_mnemonic_eq (rowOf_mem i) hr ((rowOf_mnemonic i).trans hm)
    exact selects_rowOf_of_decode hi

/-- Settles O6: the decoder computes each answer. -/
theorem sampleWordsDecode : Obligations.SampleWordsDecode := by
  unfold Obligations.SampleWordsDecode
  decide

end Sys2Proof.Machine
end
